-- ==== Sys2Proof/Word.lean ====
section
/-! DEFINITION. Word types of chip8-core: bytes, 16-bit words, 12-bit addresses (00_scope.md rule R3 and R4). Every
quantity is unsigned. -/

namespace Sys2Proof

/-- An 8-bit value: a general register, a timer, a byte of memory (R3: REG_W, TIMER_W). -/
abbrev Byte := BitVec 8

/-- A 16-bit value: I, PC, a stack entry, an instruction word (R3: I_W, PC_W, STACK_W, INSN_LEN). -/
abbrev Word := BitVec 16

/-- The 12-bit operand NNN (30_encoding.md R61). -/
abbrev Addr12 := BitVec 12

/-- A register number, the value of a field X or Y (10_state.md R10: every field value names a register). -/
abbrev RegIx := Fin 16

end Sys2Proof
end

