-- ==== Sys2Proof/Syntax.lean ====
section
/-! DEFINITION. The instruction set: one constructor per row of spec/opcode_table.json (30_encoding.md rule R65), in the
table's order, with the operand fields of rule R62. -/

namespace Sys2Proof

/-- One instruction of chip8-core. The fields are those of the row's format (R61, R62). The two shifts carry the ignored
field Y (R67) and `unrecognized` carries the word it was decoded from (R84 ignores it), so that decoding loses no bit
(log 15). -/
inductive Instr where
  | clearDisplay
  | ret
  | jump (nnn : Addr12)
  | call (nnn : Addr12)
  | skipEqImm (x : RegIx) (nn : Byte)
  | skipNeImm (x : RegIx) (nn : Byte)
  | skipEqReg (x y : RegIx)
  | skipNeReg (x y : RegIx)
  | setImm (x : RegIx) (nn : Byte)
  | addImm (x : RegIx) (nn : Byte)
  | setReg (x y : RegIx)
  | orReg (x y : RegIx)
  | andReg (x y : RegIx)
  | xorReg (x y : RegIx)
  | addReg (x y : RegIx)
  | subReg (x y : RegIx)
  | shiftRight (x y : RegIx)
  | subRegReverse (x y : RegIx)
  | shiftLeft (x y : RegIx)
  | setIndex (nnn : Addr12)
  | jumpOffset (nnn : Addr12)
  | random (x : RegIx) (nn : Byte)
  | draw (x y : RegIx) (n : Fin 16)
  | skipKeyPressed (x : RegIx)
  | skipKeyNotPressed (x : RegIx)
  | getDelayTimer (x : RegIx)
  | waitKey (x : RegIx)
  | setDelayTimer (x : RegIx)
  | setSoundTimer (x : RegIx)
  | addToIndex (x : RegIx)
  | charSpriteAddress (x : RegIx)
  | storeBcd (x : RegIx)
  | storeRegisters (x : RegIx)
  | loadRegisters (x : RegIx)
  | unrecognized (w : Word)
  deriving DecidableEq, Repr

/-- The 34 forms of the opcode map (R65), without operands; `unrecognized` is no form. -/
inductive Form where
  | clearDisplay | ret | jump | call | skipEqImm | skipNeImm | skipEqReg | skipNeReg | setImm | addImm
  | setReg | orReg | andReg | xorReg | addReg | subReg | shiftRight | subRegReverse | shiftLeft
  | setIndex | jumpOffset | random | draw | skipKeyPressed | skipKeyNotPressed | getDelayTimer | waitKey
  | setDelayTimer | setSoundTimer | addToIndex | charSpriteAddress | storeBcd | storeRegisters | loadRegisters
  deriving DecidableEq, Repr

/-- The form of an instruction; none for an unrecognized word. -/
def Instr.form : Instr → Option Form
  | .clearDisplay => some .clearDisplay
  | .ret => some .ret
  | .jump _ => some .jump
  | .call _ => some .call
  | .skipEqImm _ _ => some .skipEqImm
  | .skipNeImm _ _ => some .skipNeImm
  | .skipEqReg _ _ => some .skipEqReg
  | .skipNeReg _ _ => some .skipNeReg
  | .setImm _ _ => some .setImm
  | .addImm _ _ => some .addImm
  | .setReg _ _ => some .setReg
  | .orReg _ _ => some .orReg
  | .andReg _ _ => some .andReg
  | .xorReg _ _ => some .xorReg
  | .addReg _ _ => some .addReg
  | .subReg _ _ => some .subReg
  | .shiftRight _ _ => some .shiftRight
  | .subRegReverse _ _ => some .subRegReverse
  | .shiftLeft _ _ => some .shiftLeft
  | .setIndex _ => some .setIndex
  | .jumpOffset _ => some .jumpOffset
  | .random _ _ => some .random
  | .draw _ _ _ => some .draw
  | .skipKeyPressed _ => some .skipKeyPressed
  | .skipKeyNotPressed _ => some .skipKeyNotPressed
  | .getDelayTimer _ => some .getDelayTimer
  | .waitKey _ => some .waitKey
  | .setDelayTimer _ => some .setDelayTimer
  | .setSoundTimer _ => some .setSoundTimer
  | .addToIndex _ => some .addToIndex
  | .charSpriteAddress _ => some .charSpriteAddress
  | .storeBcd _ => some .storeBcd
  | .storeRegisters _ => some .storeRegisters
  | .loadRegisters _ => some .loadRegisters
  | .unrecognized _ => none

end Sys2Proof
end

