-- ==== Sys2Proof/WellFormed.lean ====
section
/-! DEFINITION. Well-formed instructions. The operand types already hold every field to its width, so the one check left
is that an `unrecognized` carries a word that 30_encoding.md rule R66 lists as unrecognized. -/

namespace Sys2Proof

/-- The words of rule R66, by primary nibble, written from that rule's own table and not from the opcode map of R65. -/
def unrecognizedWord (w : Word) : Bool :=
  let n := w.toNat % 16
  let nn := w.toNat % 256
  match w.toNat / 4096 with
  | 0 => w != 0x00E0#16 && w != 0x00EE#16
  | 5 => n != 0
  | 8 => 8 ≤ n && n != 0xE
  | 9 => n != 0
  | 0xE => nn != 0x9E && nn != 0xA1
  | 0xF => !([0x07, 0x0A, 0x15, 0x18, 0x1E, 0x29, 0x33, 0x55, 0x65].contains nn)
  | _ => false

/-- An instruction that some word stands for. -/
def Instr.wf : Instr → Bool
  | .unrecognized w => unrecognizedWord w
  | .clearDisplay | .ret | .jump _ | .call _ | .skipEqImm _ _ | .skipNeImm _ _ | .skipEqReg _ _ | .skipNeReg _ _
  | .setImm _ _ | .addImm _ _ | .setReg _ _ | .orReg _ _ | .andReg _ _ | .xorReg _ _ | .addReg _ _ | .subReg _ _
  | .shiftRight _ _ | .subRegReverse _ _ | .shiftLeft _ _ | .setIndex _ | .jumpOffset _ | .random _ _ | .draw _ _ _
  | .skipKeyPressed _ | .skipKeyNotPressed _ | .getDelayTimer _ | .waitKey _ | .setDelayTimer _ | .setSoundTimer _
  | .addToIndex _ | .charSpriteAddress _ | .storeBcd _ | .storeRegisters _ | .loadRegisters _ => true

end Sys2Proof
end

