-- ==== Sys2Proof/Decode.lean ====
section
/-! DEFINITION. The decoder and the encoder, both written from the opcode map of 30_encoding.md rule R65 and the fields of
rule R61. The bit patterns of 30 of the 34 rows are the spec's from general knowledge (decision D1). PRESUMED: log 7. -/

namespace Sys2Proof

/-! ### The fields of a word (R61) -/

/-- The 4-bit field of `w` whose lowest bit is bit `lo`, as a register number. -/
def nibbleAt (lo : Nat) (w : Word) : RegIx := ⟨w.toNat / 2 ^ lo % 16, Nat.mod_lt _ (by decide)⟩

/-- Field X, bits 11:8. -/
def fieldX (w : Word) : RegIx := nibbleAt 8 w

/-- Field Y, bits 7:4. -/
def fieldY (w : Word) : RegIx := nibbleAt 4 w

/-- Field N, bits 3:0. -/
def fieldN (w : Word) : Fin 16 := nibbleAt 0 w

/-- Field NN, bits 7:0. -/
def fieldNN (w : Word) : Byte := BitVec.ofNat 8 w.toNat

/-- Field NNN, bits 11:0. -/
def fieldNNN (w : Word) : Addr12 := BitVec.ofNat 12 w.toNat

/-! ### The opcode map (R65) -/

/-- The column "match" of R65. -/
def rowMatch : Form → Word
  | .clearDisplay => 0x00E0#16
  | .ret => 0x00EE#16
  | .jump => 0x1000#16
  | .call => 0x2000#16
  | .skipEqImm => 0x3000#16
  | .skipNeImm => 0x4000#16
  | .skipEqReg => 0x5000#16
  | .skipNeReg => 0x9000#16
  | .setImm => 0x6000#16
  | .addImm => 0x7000#16
  | .setReg => 0x8000#16
  | .orReg => 0x8001#16
  | .andReg => 0x8002#16
  | .xorReg => 0x8003#16
  | .addReg => 0x8004#16
  | .subReg => 0x8005#16
  | .shiftRight => 0x8006#16
  | .subRegReverse => 0x8007#16
  | .shiftLeft => 0x800E#16
  | .setIndex => 0xA000#16
  | .jumpOffset => 0xB000#16
  | .random => 0xC000#16
  | .draw => 0xD000#16
  | .skipKeyPressed => 0xE09E#16
  | .skipKeyNotPressed => 0xE0A1#16
  | .getDelayTimer => 0xF007#16
  | .waitKey => 0xF00A#16
  | .setDelayTimer => 0xF015#16
  | .setSoundTimer => 0xF018#16
  | .addToIndex => 0xF01E#16
  | .charSpriteAddress => 0xF029#16
  | .storeBcd => 0xF033#16
  | .storeRegisters => 0xF055#16
  | .loadRegisters => 0xF065#16

/-- The column "mask" of R65, one value for each format of R62. -/
def rowMask : Form → Word
  | .clearDisplay | .ret => 0xFFFF#16
  | .jump | .call | .setIndex | .jumpOffset => 0xF000#16
  | .skipEqImm | .skipNeImm | .setImm | .addImm | .random => 0xF000#16
  | .skipEqReg | .skipNeReg | .setReg | .orReg | .andReg | .xorReg | .addReg | .subReg | .shiftRight
  | .subRegReverse | .shiftLeft => 0xF00F#16
  | .draw => 0xF000#16
  | .skipKeyPressed | .skipKeyNotPressed | .getDelayTimer | .waitKey | .setDelayTimer | .setSoundTimer | .addToIndex
  | .charSpriteAddress | .storeBcd | .storeRegisters | .loadRegisters => 0xF0FF#16

/-- The rows of R65 in the table's order. -/
def opcodeMap : List Form :=
  [.clearDisplay, .ret, .jump, .call, .skipEqImm, .skipNeImm, .skipEqReg, .skipNeReg, .setImm, .addImm] ++
  [.setReg, .orReg, .andReg, .xorReg, .addReg, .subReg, .shiftRight, .subRegReverse, .shiftLeft] ++
  [.setIndex, .jumpOffset, .random, .draw, .skipKeyPressed, .skipKeyNotPressed] ++
  [.getDelayTimer, .waitKey, .setDelayTimer, .setSoundTimer, .addToIndex, .charSpriteAddress] ++
  [.storeBcd, .storeRegisters, .loadRegisters]

/-- R64: `(w and mask) = match` for the row of form `f`. -/
def matchesRow (w : Word) (f : Form) : Bool := w &&& rowMask f == rowMatch f

/-- The instruction of form `f` with its operands taken from `w` (R62). -/
def operandsOf (w : Word) : Form → Instr
  | .clearDisplay => .clearDisplay
  | .ret => .ret
  | .jump => .jump (fieldNNN w)
  | .call => .call (fieldNNN w)
  | .skipEqImm => .skipEqImm (fieldX w) (fieldNN w)
  | .skipNeImm => .skipNeImm (fieldX w) (fieldNN w)
  | .skipEqReg => .skipEqReg (fieldX w) (fieldY w)
  | .skipNeReg => .skipNeReg (fieldX w) (fieldY w)
  | .setImm => .setImm (fieldX w) (fieldNN w)
  | .addImm => .addImm (fieldX w) (fieldNN w)
  | .setReg => .setReg (fieldX w) (fieldY w)
  | .orReg => .orReg (fieldX w) (fieldY w)
  | .andReg => .andReg (fieldX w) (fieldY w)
  | .xorReg => .xorReg (fieldX w) (fieldY w)
  | .addReg => .addReg (fieldX w) (fieldY w)
  | .subReg => .subReg (fieldX w) (fieldY w)
  | .shiftRight => .shiftRight (fieldX w) (fieldY w)
  | .subRegReverse => .subRegReverse (fieldX w) (fieldY w)
  | .shiftLeft => .shiftLeft (fieldX w) (fieldY w)
  | .setIndex => .setIndex (fieldNNN w)
  | .jumpOffset => .jumpOffset (fieldNNN w)
  | .random => .random (fieldX w) (fieldNN w)
  | .draw => .draw (fieldX w) (fieldY w) (fieldN w)
  | .skipKeyPressed => .skipKeyPressed (fieldX w)
  | .skipKeyNotPressed => .skipKeyNotPressed (fieldX w)
  | .getDelayTimer => .getDelayTimer (fieldX w)
  | .waitKey => .waitKey (fieldX w)
  | .setDelayTimer => .setDelayTimer (fieldX w)
  | .setSoundTimer => .setSoundTimer (fieldX w)
  | .addToIndex => .addToIndex (fieldX w)
  | .charSpriteAddress => .charSpriteAddress (fieldX w)
  | .storeBcd => .storeBcd (fieldX w)
  | .storeRegisters => .storeRegisters (fieldX w)
  | .loadRegisters => .loadRegisters (fieldX w)

/-! ### Decoding -/

/-- R64: total on all 65536 words; a word that matches no row is `unrecognized`, by name. -/
def decode (w : Word) : Instr :=
  match opcodeMap.find? (matchesRow w) with
  | some f => operandsOf w f
  | none => .unrecognized w

/-- Why a list of bytes gives no instruction: it is shorter than one word. The hardware never meets this, since every
fetch has two bytes (R81). -/
inductive DecodeError where
  | truncated
  deriving DecidableEq, Repr

/-- The word whose bytes in memory are `hi`, then `lo` (20_memory.md R44). -/
def wordOfBytes (hi lo : Byte) : Word := BitVec.ofNat 16 (hi.toNat * 256 + lo.toNat)

/-- Decode the first instruction of a list of bytes, high byte first (R60), and give back the bytes after it. -/
def decodeBytes : List Byte → Except DecodeError (Instr × List Byte)
  | hi :: lo :: rest => .ok (decode (wordOfBytes hi lo), rest)
  | _ => .error .truncated

/-! ### Encoding -/

/-- A register number in the 4-bit field whose lowest bit is bit `lo`. -/
def putNibble (lo : Nat) (x : Fin 16) : Word := BitVec.ofNat 16 (x.val * 2 ^ lo)

/-- Format NNN of R62. -/
def encodeNNN (f : Form) (nnn : Addr12) : Word := rowMatch f ||| nnn.setWidth 16

/-- Format XNN of R62. -/
def encodeXNN (f : Form) (x : RegIx) (nn : Byte) : Word := rowMatch f ||| putNibble 8 x ||| nn.setWidth 16

/-- Format XY of R62. -/
def encodeXY (f : Form) (x y : RegIx) : Word := rowMatch f ||| putNibble 8 x ||| putNibble 4 y

/-- Format XYN of R62. -/
def encodeXYN (f : Form) (x y : RegIx) (n : Fin 16) : Word :=
  rowMatch f ||| putNibble 8 x ||| putNibble 4 y ||| putNibble 0 n

/-- Format X of R62. -/
def encodeX (f : Form) (x : RegIx) : Word := rowMatch f ||| putNibble 8 x

/-- The word of an instruction (R62, R65). -/
def encode : Instr → Word
  | .clearDisplay => rowMatch .clearDisplay
  | .ret => rowMatch .ret
  | .jump nnn => encodeNNN .jump nnn
  | .call nnn => encodeNNN .call nnn
  | .skipEqImm x nn => encodeXNN .skipEqImm x nn
  | .skipNeImm x nn => encodeXNN .skipNeImm x nn
  | .skipEqReg x y => encodeXY .skipEqReg x y
  | .skipNeReg x y => encodeXY .skipNeReg x y
  | .setImm x nn => encodeXNN .setImm x nn
  | .addImm x nn => encodeXNN .addImm x nn
  | .setReg x y => encodeXY .setReg x y
  | .orReg x y => encodeXY .orReg x y
  | .andReg x y => encodeXY .andReg x y
  | .xorReg x y => encodeXY .xorReg x y
  | .addReg x y => encodeXY .addReg x y
  | .subReg x y => encodeXY .subReg x y
  | .shiftRight x y => encodeXY .shiftRight x y
  | .subRegReverse x y => encodeXY .subRegReverse x y
  | .shiftLeft x y => encodeXY .shiftLeft x y
  | .setIndex nnn => encodeNNN .setIndex nnn
  | .jumpOffset nnn => encodeNNN .jumpOffset nnn
  | .random x nn => encodeXNN .random x nn
  | .draw x y n => encodeXYN .draw x y n
  | .skipKeyPressed x => encodeX .skipKeyPressed x
  | .skipKeyNotPressed x => encodeX .skipKeyNotPressed x
  | .getDelayTimer x => encodeX .getDelayTimer x
  | .waitKey x => encodeX .waitKey x
  | .setDelayTimer x => encodeX .setDelayTimer x
  | .setSoundTimer x => encodeX .setSoundTimer x
  | .addToIndex x => encodeX .addToIndex x
  | .charSpriteAddress x => encodeX .charSpriteAddress x
  | .storeBcd x => encodeX .storeBcd x
  | .storeRegisters x => encodeX .storeRegisters x
  | .loadRegisters x => encodeX .loadRegisters x
  | .unrecognized w => w

/-- The bytes of a word as the hardware stores them, high byte at the lower address (R44, R60). -/
def bytesOfWord (w : Word) : List Byte := [BitVec.ofNat 8 (w.toNat / 256), BitVec.ofNat 8 w.toNat]

/-- The word that the opcode table numbers `w` with `nbits` bits; every bit above them is 0. -/
def tableWord (nbits w : Nat) : Word := BitVec.ofNat 16 (w % 2 ^ nbits)

/-- What the decoder reads from an instruction whose bits the opcode table numbers `w`. -/
def decodeTableWord (nbits w : Nat) : Option Instr :=
  match decodeBytes (bytesOfWord (tableWord nbits w)) with
  | .ok (i, _) => some i
  | .error _ => none

end Sys2Proof
end

