-- ==== Sys2Proof/Config.lean ====
section
/-! DEFINITION. The parameters of 00_scope.md rule R3 and the one free value of the machine (the random input, R165). -/

namespace Sys2Proof

/-- MEM_SIZE: bytes of main memory (R3). -/
def Config.memSize : Nat := 4096

/-- PROG_BASE: address of the first loaded program byte (R3). -/
def Config.progBase : Nat := 0x200

/-- PROG_MAX: the largest accepted program (R3). -/
def Config.progMax : Nat := 3584

/-- RESET_PC: PC after `Reset` (R3, R26; conflict C2). -/
def Config.resetPc : Word := 0x0200#16

/-- GLYPH_LEN: bytes per font glyph (R3). -/
def Config.glyphLen : Nat := 5

/-- HOLD_TICKS: whether a held wait-key still ticks the timers. False on this hardware (R3, R85; conflict C1).
UNVERIFIED: log 8. -/
def Config.holdTicks : Bool := false

/-- The glyphs 0 to 7 of FONT (20_memory.md R46). PRESUMED: log 6. -/
def Config.fontLow : List Byte :=
  [0xF0#8, 0x90#8, 0x90#8, 0x90#8, 0xF0#8] ++ [0x20#8, 0x60#8, 0x20#8, 0x20#8, 0x70#8] ++
  [0xF0#8, 0x10#8, 0xF0#8, 0x80#8, 0xF0#8] ++ [0xF0#8, 0x10#8, 0xF0#8, 0x10#8, 0xF0#8] ++
  [0x90#8, 0x90#8, 0xF0#8, 0x10#8, 0x10#8] ++ [0xF0#8, 0x80#8, 0xF0#8, 0x10#8, 0xF0#8] ++
  [0xF0#8, 0x80#8, 0xF0#8, 0x90#8, 0xF0#8] ++ [0xF0#8, 0x10#8, 0x20#8, 0x40#8, 0x40#8]

/-- The glyphs 8 to F of FONT (20_memory.md R46). PRESUMED: log 6. -/
def Config.fontHigh : List Byte :=
  [0xF0#8, 0x90#8, 0xF0#8, 0x90#8, 0xF0#8] ++ [0xF0#8, 0x90#8, 0xF0#8, 0x10#8, 0xF0#8] ++
  [0xF0#8, 0x90#8, 0xF0#8, 0x90#8, 0x90#8] ++ [0xE0#8, 0x90#8, 0xE0#8, 0x90#8, 0xE0#8] ++
  [0xF0#8, 0x80#8, 0x80#8, 0x80#8, 0xF0#8] ++ [0xE0#8, 0x90#8, 0x90#8, 0x90#8, 0xE0#8] ++
  [0xF0#8, 0x80#8, 0xF0#8, 0x80#8, 0xF0#8] ++ [0xF0#8, 0x80#8, 0xF0#8, 0x80#8, 0x80#8]

/-- FONT: the 80 bytes that `Reset` puts at 0x000 to 0x04F, the default of the parameter (R3, R46). No rule of the
machine depends on the values. -/
def Config.font : List Byte := Config.fontLow ++ Config.fontHigh

/-- The random input of the `n`-th cycle when the host's script names none: one 8-bit value under no law (R165,
93_implementation_defined.md U6). It has no body, so nothing can be proved of its value. Log 1. -/
opaque Config.freeRnd : Nat → Byte

end Sys2Proof
end

