-- ==== Sys2Proof/Machine/State.lean ====
section
/-! DEFINITION. The state of chip8-core, all of it and as plain data (10_state.md), its reset value, and the reasons a
step can stop (none of the machine's own). -/

namespace Sys2Proof.Machine

/-- Main memory: the bytes that differ from what they hold after `Reset`, as (address, byte) pairs in the canonical form
`Memory.wf` of Machine/Ops.lean. -/
abbrev Memory := List Host.Cell

/-- The framebuffer: 32 rows of 64 pixels (10_state.md R18). `FB[x, y]` is element x of row y; true means set. -/
abbrev Frame := Vector (Vector Bool 64) 32

/-- The names of the report flags (R20). -/
inductive ReportFlag where
  | redraw | sndstop | unrec | stkovf | stkunf
  deriving DecidableEq, Repr

/-- The five report flags: independent, sticky, one bit each (R20). -/
structure ReportFlags where
  redraw  : Bool
  sndstop : Bool
  unrec   : Bool
  stkovf  : Bool
  stkunf  : Bool
  deriving DecidableEq, Repr

/-- What the host can ask of the core (00_scope.md R2). A key index is any integer (R164). DESIGN CHOICE: log 2. -/
inductive Command where
  | cycle (rnd : Byte)
  | reset
  | load (bytes : List Byte)
  | setKey (k : Int) (pressed : Bool)
  | clearFlags (set : List ReportFlag)
  | setTrace (on : Bool)
  | readFB
  deriving DecidableEq, Repr

/-- What the core gives out beside its levels: a trace record (R86), the answer of `Load` (R172), the grid of `ReadFB`
(R169). -/
inductive Output where
  | trace (pc word : Word)
  | loadResult (accepted : Bool)
  | frame (fb : Frame)
  deriving DecidableEq, Repr

/-- The outside of the core: NOT the spec's state but the model's own (logs 1, 2 and 4). -/
structure Env where
  /-- The host's coming commands, oldest first. With none, a step is a `Cycle` with a free random input. -/
  script : List Command
  /-- How many cycles have run: the argument of `Config.freeRnd`. -/
  draws  : Nat
  /-- What the core has given out, oldest first. -/
  out    : List Output
  deriving DecidableEq, Repr

/-- The machine's state (10_state.md section 1) and, in `env`, the model's own fields. -/
structure State where
  /-- V[0] to V[15] (R10, R11). -/
  v       : Vector Byte 16
  /-- I, the index register (R12). -/
  i       : Word
  /-- PC (R13). -/
  pc      : Word
  /-- STACK[0] to STACK[15] (R14). -/
  stack   : Vector Word 16
  /-- SP, the number of valid entries of STACK, 0 to 16 (R15). DESIGN CHOICE: log 5. -/
  sp      : Fin 17
  /-- DT, the delay timer (R16). -/
  dt      : Byte
  /-- ST, the sound timer (R17). -/
  st      : Byte
  /-- FB, the framebuffer (R18). -/
  fb      : Frame
  /-- KEY[0] to KEY[15], the keypad latch (R19). -/
  key     : Vector Bool 16
  /-- REDRAW, SNDSTOP, UNREC, STKOVF, STKUNF (R20). -/
  flags   : ReportFlags
  /-- MEM (R21). -/
  mem     : Memory
  /-- TRACE_EN (R22). -/
  traceEn : Bool
  /-- The model's own fields. -/
  env     : Env
  deriving DecidableEq, Repr

/-- A step of this machine never faults: "In a model, the step function is total and has no fault outcome"
(60_exceptions.md R150). So this type has no constructor. -/
inductive Fault where
  deriving DecidableEq, Repr

/-- Why the model gives an instruction no meaning. -/
inductive Refusal where
  /-- Raised by an arm of `exec` whose instruction has no meaning yet; no arm of this model raises it. Safe: the model
  stops where the hardware goes on. -/
  | notModelled (mnemonic : String)
  deriving DecidableEq, Repr

/-- Every report flag 0 (R26). -/
def ReportFlags.none : ReportFlags := ⟨false, false, false, false, false⟩

/-- Every pixel 0 (R26, R130). -/
def Frame.blank : Frame := Vector.replicate 32 (Vector.replicate 64 false)

/-- The model's own fields at reset: no command waits, no cycle has run, nothing has come out. DESIGN CHOICE: logs 1, 2
and 4. -/
def Env.reset : Env := ⟨[], 0, []⟩

/-- The state after `Reset` (R26, R170). Memory lists nothing: an unlisted address reads as FONT or 0
(`Memory.resetByte`). -/
def State.reset : State where
  v       := Vector.replicate 16 0#8
  i       := 0#16
  pc      := Config.resetPc
  stack   := Vector.replicate 16 0#16
  sp      := 0
  dt      := 0#8
  st      := 0#8
  fb      := Frame.blank
  key     := Vector.replicate 16 false
  flags   := ReportFlags.none
  mem     := []
  traceEn := false
  env     := Env.reset

end Sys2Proof.Machine
end

