-- ==== Sys2Proof/Machine/Ops.lean ====
section
/-! DEFINITION. The operations every meaning is written over: general registers, memory, the return stack, the
framebuffer, the keypad latch, the report flags, the program counter, the timers, and what comes in from and goes out to
the host. -/

namespace Sys2Proof.Machine

/-! ### General registers (10_state.md R10) -/

/-- `V[x]`. -/
def State.readV (s : State) (x : RegIx) : Byte := s.v[x.val]

/-- `V[x] <- b`. -/
def State.writeV (s : State) (x : RegIx) (b : Byte) : State := { s with v := s.v.set x.val b }

/-- `V[k] <- b` for the bytes of a list, at k, k + 1, ...; a byte past V[15] goes nowhere (load-registers gives at most
16, so this does not arise). -/
def writeRegs : Nat → List Byte → Vector Byte 16 → Vector Byte 16
  | _, [], v => v
  | k, b :: bs, v => writeRegs (k + 1) bs (v.setIfInBounds k b)

/-! ### Main memory (20_memory.md R40 to R44, R48) -/

/-- What an address that memory does not list reads as: its content after `Reset` (R26, R47). -/
def Memory.resetByte (a : Nat) : Byte := Config.font.getD a 0#8

/-- The byte at an address below 4096. -/
def Memory.get : Memory → Nat → Byte
  | [], a => Memory.resetByte a
  | (k, b) :: m, a => if k = a then b else Memory.get m a

/-- Put a byte in front of the cells above its address, unless it is what the address reads as unlisted. -/
def Memory.place (a : Nat) (b : Byte) (m : Memory) : Memory := if b = Memory.resetByte a then m else (a, b) :: m

/-- Memory without the entries of one address. -/
def Memory.erase (a : Nat) (m : Memory) : Memory := m.filter fun c => c.1 != a

/-- Memory with one byte replaced: the cells below the address stay, its own go, and the new one is placed before the cells
above. On a memory in canonical form this keeps the form. -/
def Memory.put : Memory → Nat → Byte → Memory
  | [], a, b => Memory.place a b []
  | (k, c) :: m, a, b =>
    if k < a then (k, c) :: Memory.put m a b else Memory.place a b (Memory.erase a ((k, c) :: m))

/-- Canonical form of the cells at address `lo` and above. -/
def Memory.wfFrom : Nat → Memory → Bool
  | _, [] => true
  | lo, (k, b) :: m => lo ≤ k && k < Config.memSize && b != Memory.resetByte k && Memory.wfFrom (k + 1) m

/-- The canonical form: addresses strictly rising and inside the address space, no entry equal to what an unlisted
address reads as. -/
def Memory.wf (m : Memory) : Bool := Memory.wfFrom 0 m

/-- R41: the address that reaches MEM is the number presented modulo 4096. UNVERIFIED: log 11. -/
def memAddress (a : Nat) : Nat := a % Config.memSize

/-- `MemRead(a, 1)` (R42). -/
def State.memRead (s : State) (a : Nat) : Byte := s.mem.get (memAddress a)

/-- `MemWrite(a, 1, b)` (R43). Every byte can be written (R48). -/
def State.memWrite (s : State) (a : Nat) (b : Byte) : State := { s with mem := s.mem.put (memAddress a) b }

/-- The bytes at a, a + 1, ..., each address reduced on its own (R41, R53). -/
def State.readBytes (s : State) (a n : Nat) : List Byte := (List.range n).map fun k => s.memRead (a + k)

/-- Memory with a list of bytes put at a, a + 1, ..., in ascending order (R53), each address reduced on its own (R41). -/
def Memory.putBytes : Memory → Nat → List Byte → Memory
  | m, _, [] => m
  | m, a, b :: bs => Memory.putBytes (m.put (memAddress a) b) (a + 1) bs

/-- Store a list of bytes at a, a + 1, ..., as MemWrite does one by one. -/
def State.writeBytes (s : State) (a : Nat) (bs : List Byte) : State := { s with mem := s.mem.putBytes a bs }

/-- `Fetch16(pc)` (R44): high byte at the lower address. -/
def State.fetch16 (s : State) (pc : Word) : Word :=
  BitVec.ofNat 16 ((s.memRead pc.toNat).toNat * 256 + (s.memRead (pc.toNat + 1)).toNat)

/-- Store a word where a fetch at `pc` reads it, high byte first (R44). -/
def State.placeWord (s : State) (pc w : Word) : State :=
  s.writeBytes pc.toNat [BitVec.ofNat 8 (w.toNat / 256), BitVec.ofNat 8 w.toNat]

/-! ### Program counter (10_state.md R13) -/

/-- `PC <- (PC + 2) mod 65536`. -/
def State.advance (s : State) : State := { s with pc := s.pc + 2#16 }

/-- `PC <- (PC + 4) mod 65536` if the condition holds, else `PC <- (PC + 2) mod 65536`. -/
def State.skipIf (s : State) (c : Bool) : State := { s with pc := s.pc + if c then 4#16 else 2#16 }

/-- `PC <- target`. -/
def State.jumpTo (s : State) (target : Word) : State := { s with pc := target }

/-! ### Report flags (10_state.md R20) -/

/-- One flag's level. -/
def ReportFlags.get (f : ReportFlags) : ReportFlag → Bool
  | .redraw => f.redraw
  | .sndstop => f.sndstop
  | .unrec => f.unrec
  | .stkovf => f.stkovf
  | .stkunf => f.stkunf

/-- One flag set to a level. -/
def ReportFlags.put (f : ReportFlags) (n : ReportFlag) (b : Bool) : ReportFlags :=
  match n with
  | .redraw => { f with redraw := b }
  | .sndstop => { f with sndstop := b }
  | .unrec => { f with unrec := b }
  | .stkovf => { f with stkovf := b }
  | .stkunf => { f with stkunf := b }

/-- `report <FLAG>` (00_scope.md R4). -/
def State.report (s : State) (n : ReportFlag) : State := { s with flags := s.flags.put n true }

/-- This machine's place of an exception's entry: on a reported condition the flag is set and PC steps on by 2. Nothing
is saved, no mode changes, no vector is taken, nothing else happens (60_exceptions.md R151, R157). There is no return
from it (R158). -/
def State.reportCondition (s : State) (n : ReportFlag) : State := (s.report n).advance

/-! ### Return stack (10_state.md R14, R15) -/

/-- Write STACK[SP] and count it; none when the stack is full. UNVERIFIED: log 10. -/
def State.push (s : State) (a : Word) : Option State :=
  if h : s.sp.val < 16 then some { s with stack := s.stack.set s.sp.val a, sp := ⟨s.sp.val + 1, by omega⟩ } else none

/-- STACK[SP - 1] and the state with SP counted down, the entry left as it was; none when the stack is empty.
UNVERIFIED: log 10. -/
def State.pop (s : State) : Option (Word × State) :=
  if _h : 0 < s.sp.val then some (s.stack[s.sp.val - 1]'(by omega), { s with sp := ⟨s.sp.val - 1, by omega⟩ }) else none

/-! ### Framebuffer (10_state.md R18) -/

/-- `FB[x, y]`. -/
def Frame.pixel (f : Frame) (x : Fin 64) (y : Fin 32) : Bool := f[y.val][x.val]

/-- `FB[x, y] <- b`. -/
def Frame.setPixel (f : Frame) (x : Fin 64) (y : Fin 32) (b : Bool) : Frame :=
  f.set y.val ((f[y.val]).set x.val b)

/-- A column modulo the display's width (44_display.md R131). -/
def wrapX (n : Nat) : Fin 64 := ⟨n % 64, Nat.mod_lt _ (by decide)⟩

/-- A row modulo the display's height (R131). -/
def wrapY (n : Nat) : Fin 32 := ⟨n % 32, Nat.mod_lt _ (by decide)⟩

/-- Sprite column c of a row byte is its bit 7 - c (R132). PRESUMED: log 13. -/
def spriteBit (b : Byte) (c : Nat) : Bool := b.getLsbD (7 - c)

/-- A framebuffer being drawn into, and whether a pixel has gone from 1 to 0 yet. -/
structure Canvas where
  fb  : Frame
  hit : Bool
  deriving DecidableEq, Repr

/-- A source bit 1 toggles its pixel, and it is a collision if the pixel was set; a source bit 0 does nothing (R131). -/
def Canvas.drawBit (k : Canvas) (bit : Bool) (x : Fin 64) (y : Fin 32) : Canvas :=
  if bit then ⟨k.fb.setPixel x y (!k.fb.pixel x y), k.hit || k.fb.pixel x y⟩ else k

/-- The columns c of a list, of the row byte `b` drawn from column x0 in row y, each wrapped on its own (R131). -/
def Canvas.drawColumns (k : Canvas) (b : Byte) (x0 y : Nat) : List Nat → Canvas
  | [] => k
  | c :: cs => Canvas.drawColumns (k.drawBit (spriteBit b c) (wrapX (x0 + c)) (wrapY y)) b x0 y cs

/-- The rows of a sprite, the first one in row y0, each wrapped on its own (R131). -/
def Canvas.drawRows (k : Canvas) (x0 y0 : Nat) : List Byte → Canvas
  | [] => k
  | b :: bs => Canvas.drawRows (k.drawColumns b x0 y0 (List.range 8)) x0 (y0 + 1) bs

/-! ### Keypad latch (10_state.md R19) -/

/-- `KEY[k]`. -/
def State.keyDown (s : State) (k : Fin 16) : Bool := s.key[k.val]

/-- The least pressed key from `k` on, in an ascending scan of the latch's levels (45_timers_input.md R145). UNVERIFIED:
log 12. -/
def leastKeyFrom : Nat → List Bool → Option Nat
  | _, [] => none
  | k, b :: bs => if b then some k else leastKeyFrom (k + 1) bs

/-- The least pressed key, if any key is pressed (R145). -/
def State.leastKey (s : State) : Option Nat := leastKeyFrom 0 s.key.toList

/-! ### Timers (60_exceptions.md R160 to R162) -/

/-- One countdown: a timer at 0 stays at 0. -/
def countDown (t : Byte) : Byte := if t = 0#8 then t else t - 1#8

/-- `Tick()` (R160). SNDSTOP is set exactly when ST goes from 1 to 0 (R162). -/
def State.tick (s : State) : State :=
  let ended := if s.st = 1#8 then s.report .sndstop else s
  { ended with dt := countDown s.dt, st := countDown s.st }

/-- SOUND_ACTIVE (R161). -/
def State.soundActive (s : State) : Bool := s.st != 0#8

/-! ### The random input, the trace, and the host's commands (60_exceptions.md R165, 40_cycle.md R86, 00_scope.md R2) -/

/-- `rnd` of the coming cycle: the host's, if its next command is a cycle, else a free value. DESIGN CHOICE: log 1. -/
def State.rnd (s : State) : Byte :=
  match s.env.script with
  | .cycle r :: _ => r
  | _ => Config.freeRnd s.env.draws

/-- Give something out. -/
def State.emit (s : State) (o : Output) : State := { s with env := { s.env with out := s.env.out ++ [o] } }

/-- R86: with TRACE_EN = 1, give out PC and the fetched word. -/
def State.emitTrace (s : State) (w : Word) : State := if s.traceEn then s.emit (.trace s.pc w) else s

/-- The host's first command is done. -/
def State.popCommand (s : State) : State := { s with env := { s.env with script := s.env.script.tail } }

/-- A cycle is over: its command and its random input are used up. -/
def State.endInput (s : State) : State :=
  { s with env := { s.env with script := s.env.script.tail, draws := s.env.draws + 1 } }

end Sys2Proof.Machine
end

