-- ==== Sys2Proof/Machine/Operands.lean ====
section
/-! DEFINITION. The operand forms (30_encoding.md R61 to R63, 43_index_memory.md "Addressing"): how a meaning turns the
fields of an instruction into the values it works on. There is no sign extension and no scaling anywhere (R63). -/

namespace Sys2Proof.Machine

/-- The number of VF, the flag register (10_state.md R11). -/
def regVF : RegIx := 15

/-- The number of V0, which jump-offset reads (41_control_flow.md R97). -/
def regV0 : RegIx := 0

/-- NNN used as an address: `zext_16(NNN)` (R63). -/
def addr16 (nnn : Addr12) : Word := nnn.setWidth 16

/-- A register used at 16 bits: `zext_16(v)` (43_index_memory.md R121). -/
def byte16 (b : Byte) : Word := b.setWidth 16

/-- The address I + k presented to memory (20_memory.md R41). -/
def State.effective (s : State) (k : Nat) : Nat := s.i.toNat + k

/-- The bytes of MEM at I, I + 1, ..., n of them: the operand of draw and of load-registers. -/
def State.bytesAtI (s : State) (n : Nat) : List Byte := s.readBytes (s.effective 0) n

/-- V[0], ..., V[x]: the operand of store-registers (R124). -/
def State.regsUpTo (s : State) (x : RegIx) : List Byte := s.v.toList.take (x.val + 1)

/-- The key that VX selects: VX mod 16 (45_timers_input.md R143). UNVERIFIED: log 12. -/
def keyIndex (b : Byte) : Fin 16 := ⟨b.toNat % 16, Nat.mod_lt _ (by decide)⟩

/-- The column a sprite is drawn from: VX mod 64 (44_display.md R131). -/
def originX (b : Byte) : Nat := b.toNat % 64

/-- The row a sprite is drawn from: VY mod 32 (R131). -/
def originY (b : Byte) : Nat := b.toNat % 32

/-- The three decimal digits of a byte, hundreds first (43_index_memory.md R123). -/
def bcdDigits (b : Byte) : List Byte :=
  [BitVec.ofNat 8 (b.toNat / 100), BitVec.ofNat 8 (b.toNat / 10 % 10), BitVec.ofNat 8 (b.toNat % 10)]

end Sys2Proof.Machine
end

