-- ==== Sys2Proof/Machine/Flags.lean ====
section
/-! DEFINITION. The values VF takes as the flag register (10_state.md R11, 42_alu.md R112) and the two orders in which a
result and its flag are written (00_scope.md R5). -/

namespace Sys2Proof.Machine

/-- A flag as a register's value: 1 or 0. -/
def flagByte (c : Bool) : Byte := if c then 1#8 else 0#8

/-- Carry of an 8-bit addition: the true sum exceeds 255 (R112 (a)). -/
def carryOut (a b : Byte) : Byte := flagByte (255 < a.toNat + b.toNat)

/-- Not-borrow of a subtraction: the minuend is STRICTLY greater than the subtrahend (R112 (b)). -/
def notBorrow (a b : Byte) : Byte := flagByte (b.toNat < a.toNat)

/-- The bit a right shift pushes out: bit 0 (R112 (c)). -/
def lowBit (a : Byte) : Byte := BitVec.ofNat 8 (a.toNat % 2)

/-- The bit a left shift pushes out: bit 7 (R112 (c)). -/
def highBit (a : Byte) : Byte := BitVec.ofNat 8 (a.toNat / 128)

/-- The result into VX, then the flag into VF: with X = 0xF the flag remains (R5, R106). UNVERIFIED: log 9. -/
def State.resultThenFlag (s : State) (x : RegIx) (result flag : Byte) : State := (s.writeV x result).writeV regVF flag

/-- The flag into VF, then the result into VX: with X = 0xF the result remains (R5, R107 to R110). UNVERIFIED: log 9. -/
def State.flagThenResult (s : State) (x : RegIx) (flag result : Byte) : State := (s.writeV regVF flag).writeV x result

end Sys2Proof.Machine
end

