-- ==== Sys2Proof/Machine/Alu.lean ====
section
/-! DEFINITION. Register loads, arithmetic and logic, random (42_alu.md R100 to R111). Register operands are read before
anything is written (00_scope.md R5): every value below is read from `s`. -/

namespace Sys2Proof.Machine

/-- `set-imm Vx, #nn` (R100). -/
def execSetImm (x : RegIx) (nn : Byte) (s : State) : Host.Outcome State Fault Refusal := .next (s.writeV x nn).advance

/-- `add-imm Vx, #nn` (R101): no flag. -/
def execAddImm (x : RegIx) (nn : Byte) (s : State) : Host.Outcome State Fault Refusal :=
  .next (s.writeV x (s.readV x + nn)).advance

/-- `set-reg Vx, Vy` (R102). -/
def execSetReg (x y : RegIx) (s : State) : Host.Outcome State Fault Refusal := .next (s.writeV x (s.readV y)).advance

/-- `or Vx, Vy` (R103): VF is left as it was. -/
def execOrReg (x y : RegIx) (s : State) : Host.Outcome State Fault Refusal :=
  .next (s.writeV x (s.readV x ||| s.readV y)).advance

/-- `and Vx, Vy` (R104): VF is left as it was. -/
def execAndReg (x y : RegIx) (s : State) : Host.Outcome State Fault Refusal :=
  .next (s.writeV x (s.readV x &&& s.readV y)).advance

/-- `xor Vx, Vy` (R105): VF is left as it was. -/
def execXorReg (x y : RegIx) (s : State) : Host.Outcome State Fault Refusal :=
  .next (s.writeV x (s.readV x ^^^ s.readV y)).advance

/-- `add-reg Vx, Vy` (R106): the sum, then the carry. -/
def execAddReg (x y : RegIx) (s : State) : Host.Outcome State Fault Refusal :=
  .next (s.resultThenFlag x (s.readV x + s.readV y) (carryOut (s.readV x) (s.readV y))).advance

/-- `sub-reg Vx, Vy` (R107): not-borrow of VX - VY, then the difference. -/
def execSubReg (x y : RegIx) (s : State) : Host.Outcome State Fault Refusal :=
  .next (s.flagThenResult x (notBorrow (s.readV x) (s.readV y)) (s.readV x - s.readV y)).advance

/-- `shift-right Vx` (R108): the bit shifted out, then VX div 2. The field Y takes no part (30_encoding.md R67). -/
def execShiftRight (x _y : RegIx) (s : State) : Host.Outcome State Fault Refusal :=
  .next (s.flagThenResult x (lowBit (s.readV x)) (s.readV x >>> 1)).advance

/-- `sub-reg-reverse Vx, Vy` (R109): not-borrow of VY - VX, then the difference. -/
def execSubRegReverse (x y : RegIx) (s : State) : Host.Outcome State Fault Refusal :=
  .next (s.flagThenResult x (notBorrow (s.readV y) (s.readV x)) (s.readV y - s.readV x)).advance

/-- `shift-left Vx` (R110): the bit shifted out, then 2 VX modulo 256. The field Y takes no part (30_encoding.md R67). -/
def execShiftLeft (x _y : RegIx) (s : State) : Host.Outcome State Fault Refusal :=
  .next (s.flagThenResult x (highBit (s.readV x)) (s.readV x <<< 1)).advance

/-- `random Vx, #nn` (R111): the cycle's random input, masked. -/
def execRandom (x : RegIx) (nn : Byte) (s : State) : Host.Outcome State Fault Refusal :=
  .next (s.writeV x (s.rnd &&& nn)).advance

end Sys2Proof.Machine
end

