-- ==== Sys2Proof/Machine/ControlFlow.lean ====
section
/-! DEFINITION. Control transfer (41_control_flow.md R90 to R97) and the unrecognized word (40_cycle.md R84). -/

namespace Sys2Proof.Machine

/-- `return` (R90). With an empty stack: STKUNF, and the next instruction in sequence (60_exceptions.md R154). -/
def execRet (s : State) : Host.Outcome State Fault Refusal :=
  match s.pop with
  | some (a, t) => .next (t.jumpTo a).advance
  | none => .next (s.reportCondition .stkunf)

/-- `jump nnn` (R91). -/
def execJump (nnn : Addr12) (s : State) : Host.Outcome State Fault Refusal := .next (s.jumpTo (addr16 nnn))

/-- `call nnn` (R92): the address pushed is the call's own. With a full stack: STKOVF, and the next instruction in
sequence (60_exceptions.md R153). -/
def execCall (nnn : Addr12) (s : State) : Host.Outcome State Fault Refusal :=
  match s.push s.pc with
  | some t => .next (t.jumpTo (addr16 nnn))
  | none => .next (s.reportCondition .stkovf)

/-- `skip-eq-imm Vx, #nn` (R93). -/
def execSkipEqImm (x : RegIx) (nn : Byte) (s : State) : Host.Outcome State Fault Refusal :=
  .next (s.skipIf (s.readV x == nn))

/-- `skip-ne-imm Vx, #nn` (R94). -/
def execSkipNeImm (x : RegIx) (nn : Byte) (s : State) : Host.Outcome State Fault Refusal :=
  .next (s.skipIf (s.readV x != nn))

/-- `skip-eq-reg Vx, Vy` (R95). -/
def execSkipEqReg (x y : RegIx) (s : State) : Host.Outcome State Fault Refusal :=
  .next (s.skipIf (s.readV x == s.readV y))

/-- `skip-ne-reg Vx, Vy` (R96). -/
def execSkipNeReg (x y : RegIx) (s : State) : Host.Outcome State Fault Refusal :=
  .next (s.skipIf (s.readV x != s.readV y))

/-- `jump-offset nnn` (R97): always V0, and PC is not reduced to 12 bits. -/
def execJumpOffset (nnn : Addr12) (s : State) : Host.Outcome State Fault Refusal :=
  .next (s.jumpTo (addr16 nnn + byte16 (s.readV regV0)))

/-- `unrecognized` (R84): the word is ignored; UNREC is reported and PC steps on. -/
def execUnrecognized (_w : Word) (s : State) : Host.Outcome State Fault Refusal := .next (s.reportCondition .unrec)

end Sys2Proof.Machine
end

