-- ==== Sys2Proof/Machine/Display.lean ====
section
/-! DEFINITION. The framebuffer forms (44_display.md R130 to R132). -/

namespace Sys2Proof.Machine

/-- `clear-display` (R130): REDRAW is raised even when nothing changes. -/
def execClearDisplay (s : State) : Host.Outcome State Fault Refusal :=
  .next (({ s with fb := Frame.blank } : State).report .redraw).advance

/-- The framebuffer and the collision of drawing n rows at the position that V[x] and V[y] give (R131). -/
def State.drawn (s : State) (x y : RegIx) (n : Fin 16) : Canvas :=
  Canvas.drawRows ⟨s.fb, false⟩ (originX (s.readV x)) (originY (s.readV y)) (s.bytesAtI n.val)

/-- `draw Vx, Vy, #n` (R131): the position is read before VF is written; VF is the collision, REDRAW is raised always. -/
def execDraw (x y : RegIx) (n : Fin 16) (s : State) : Host.Outcome State Fault Refusal :=
  .next ((({ s with fb := (s.drawn x y n).fb } : State).writeV regVF (flagByte (s.drawn x y n).hit)).report
    .redraw).advance

end Sys2Proof.Machine
end

