-- ==== Sys2Proof/Machine/IndexMemory.lean ====
section
/-! DEFINITION. The index register and memory transfer (43_index_memory.md R120 to R125). No form that accesses memory
changes I, and none writes VF as a flag. -/

namespace Sys2Proof.Machine

/-- `set-index nnn` (R120). -/
def execSetIndex (nnn : Addr12) (s : State) : Host.Outcome State Fault Refusal :=
  .next { s with i := addr16 nnn }.advance

/-- `add-to-index Vx` (R121): 16 bits wide, no flag. -/
def execAddToIndex (x : RegIx) (s : State) : Host.Outcome State Fault Refusal :=
  .next { s with i := s.i + byte16 (s.readV x) }.advance

/-- `char-sprite-address Vx` (R122): all 8 bits of VX are multiplied. -/
def execCharSpriteAddress (x : RegIx) (s : State) : Host.Outcome State Fault Refusal :=
  .next { s with i := BitVec.ofNat 16 ((s.readV x).toNat * Config.glyphLen) }.advance

/-- `store-bcd Vx` (R123). -/
def execStoreBcd (x : RegIx) (s : State) : Host.Outcome State Fault Refusal :=
  .next (s.writeBytes (s.effective 0) (bcdDigits (s.readV x))).advance

/-- `store-registers Vx` (R124): V0 to VX. -/
def execStoreRegisters (x : RegIx) (s : State) : Host.Outcome State Fault Refusal :=
  .next (s.writeBytes (s.effective 0) (s.regsUpTo x)).advance

/-- `load-registers Vx` (R125): V0 to VX. -/
def execLoadRegisters (x : RegIx) (s : State) : Host.Outcome State Fault Refusal :=
  .next { s with v := writeRegs 0 (s.bytesAtI (x.val + 1)) s.v }.advance

end Sys2Proof.Machine
end

