-- ==== Sys2Proof/Machine/TimersInput.lean ====
section
/-! DEFINITION. Timer access and the keypad forms (45_timers_input.md R140 to R145). The tick is not here: a cycle
performs it after these (40_cycle.md R80). -/

namespace Sys2Proof.Machine

/-- `get-delay-timer Vx` (R140). -/
def execGetDelayTimer (x : RegIx) (s : State) : Host.Outcome State Fault Refusal := .next (s.writeV x s.dt).advance

/-- `set-delay-timer Vx` (R141). -/
def execSetDelayTimer (x : RegIx) (s : State) : Host.Outcome State Fault Refusal :=
  .next { s with dt := s.readV x }.advance

/-- `set-sound-timer Vx` (R142). -/
def execSetSoundTimer (x : RegIx) (s : State) : Host.Outcome State Fault Refusal :=
  .next { s with st := s.readV x }.advance

/-- `skip-key-pressed Vx` (R143). -/
def execSkipKeyPressed (x : RegIx) (s : State) : Host.Outcome State Fault Refusal :=
  .next (s.skipIf (s.keyDown (keyIndex (s.readV x))))

/-- `skip-key-not-pressed Vx` (R144). -/
def execSkipKeyNotPressed (x : RegIx) (s : State) : Host.Outcome State Fault Refusal :=
  .next (s.skipIf (!s.keyDown (keyIndex (s.readV x))))

/-- `wait-key Vx` (R145): the least pressed key; with none, `hold`, in which nothing changes (40_cycle.md R85). That the
cycle then does not tick is said by `holds` of Machine/Cycle.lean. -/
def execWaitKey (x : RegIx) (s : State) : Host.Outcome State Fault Refusal :=
  match s.leastKey with
  | some k => .next (s.writeV x (BitVec.ofNat 8 k)).advance
  | none => .next s

end Sys2Proof.Machine
end

