-- ==== Sys2Proof/Machine/HostOps.lean ====
section
/-! DEFINITION. The host's operations (00_scope.md R2): what each does to the state. Each acts wholly between two cycles
(R1); Machine/Cycle.lean says when. DESIGN CHOICE: log 2. -/

namespace Sys2Proof.Machine

/-- `Reset()` (70_reset_and_hazards.md R170): every piece of state, whatever it was. The host's own commands and what the
core has given out are not the machine's state and stay. -/
def State.hostReset (s : State) : State := { State.reset with env := s.env }

/-- Whether `Load` accepts (R172): at most 3584 bytes. -/
def loadAccepted (bytes : List Byte) : Bool := bytes.length ≤ Config.progMax

/-- The effect of `Load(bytes)` on the machine (R172): the bytes from 0x200 upward, or nothing if it is rejected. -/
def State.loadBytes (s : State) (bytes : List Byte) : State :=
  if loadAccepted bytes then s.writeBytes Config.progBase bytes else s

/-- `Load(bytes)` with its answer to the host (R172). -/
def State.hostLoad (s : State) (bytes : List Byte) : State :=
  (s.loadBytes bytes).emit (.loadResult (loadAccepted bytes))

/-- `SetKey(k, b)` (60_exceptions.md R164): an index outside 0 to 15, negative ones too, changes nothing. -/
def State.hostSetKey (s : State) (k : Int) (b : Bool) : State :=
  if 0 ≤ k then { s with key := s.key.setIfInBounds k.toNat b } else s

/-- Every flag of a list set to 0. -/
def ReportFlags.clear (f : ReportFlags) : List ReportFlag → ReportFlags
  | [] => f
  | n :: ns => ReportFlags.clear (f.put n false) ns

/-- `ClearFlags(set)` (R168). -/
def State.hostClearFlags (s : State) (ns : List ReportFlag) : State := { s with flags := s.flags.clear ns }

/-- `SetTrace(b)` (40_cycle.md R86). -/
def State.hostSetTrace (s : State) (b : Bool) : State := { s with traceEn := b }

/-- `ReadFB()` (60_exceptions.md R169): gives out the whole grid and changes no state of the machine. -/
def State.hostReadFB (s : State) : State := s.emit (.frame s.fb)

/-- What a command of the host's, other than a cycle, does. A cycle is no host operation: see Machine/Cycle.lean. -/
def State.perform (s : State) (c : Command) : State :=
  match c with
  | .cycle _ => s
  | .reset => s.hostReset
  | .load bytes => s.hostLoad bytes
  | .setKey k b => s.hostSetKey k b
  | .clearFlags ns => s.hostClearFlags ns
  | .setTrace b => s.hostSetTrace b
  | .readFB => s.hostReadFB

/-- Whether a command is a cycle. -/
def Command.isCycle : Command → Bool
  | .cycle _ => true
  | .reset | .load _ | .setKey _ _ | .clearFlags _ | .setTrace _ | .readFB => false

/-- The core moves next: the host has no operation waiting before the coming cycle. -/
def State.cycleDue (s : State) : Bool :=
  match s.env.script with
  | [] => true
  | c :: _ => c.isCycle

end Sys2Proof.Machine
end

