-- ==== Sys2Proof/Machine/Cycle.lean ====
section
/-! DEFINITION. `Cycle(rnd)`: fetch, trace, decode, execute, tick (40_cycle.md R80 to R87), and the step that lets either
the host or the core move. -/

namespace Sys2Proof.Machine

/-- Whether an instruction is wait-key, the one form that can end in `hold` (R83, R85). -/
def waitsForKey : Instr → Bool
  | .waitKey _ => true
  | .clearDisplay | .ret | .jump _ | .call _ | .skipEqImm _ _ | .skipNeImm _ _ | .skipEqReg _ _ | .skipNeReg _ _
  | .setImm _ _ | .addImm _ _ | .setReg _ _ | .orReg _ _ | .andReg _ _ | .xorReg _ _ | .addReg _ _ | .subReg _ _
  | .shiftRight _ _ | .subRegReverse _ _ | .shiftLeft _ _ | .setIndex _ | .jumpOffset _ | .random _ _ | .draw _ _ _
  | .skipKeyPressed _ | .skipKeyNotPressed _ | .getDelayTimer _ | .setDelayTimer _ | .setSoundTimer _
  | .addToIndex _ | .charSpriteAddress _ | .storeBcd _ | .storeRegisters _ | .loadRegisters _ | .unrecognized _ => false

/-- The outcome of executing `i` is `hold`, not `done`: wait-key with no key pressed (R85). -/
def holds (i : Instr) (s : State) : Bool := waitsForKey i && s.leastKey.isNone

/-- AwaitingKey, the derived mode (R87). -/
def State.awaitingKey (s : State) : Bool := holds (decode (s.fetch16 s.pc)) s

/-- The end of a cycle: the tick, unless the outcome was `hold` (R80 step 5, R85); then the cycle's input is used up. -/
def State.endCycle (s : State) (held : Bool) : State :=
  (if held && !Config.holdTicks then s else s.tick).endInput

/-- `Cycle(rnd)` (R80); `rnd` is `s.rnd`. -/
def State.cycle (s : State) : Host.Outcome State Fault Refusal :=
  match exec (decode (s.fetch16 s.pc)) (s.emitTrace (s.fetch16 s.pc)) with
  | .next t => .next (t.endCycle s.awaitingKey)
  | .fault r => .fault r
  | .refused r => .refused r

/-- One step: a cycle, unless the host's next command is an operation of its own, which is then performed (00_scope.md
R1). DESIGN CHOICE: log 2. -/
def State.move (s : State) : Host.Outcome State Fault Refusal :=
  match s.env.script with
  | [] => s.cycle
  | c :: _ => if c.isCycle then s.cycle else .next (s.popCommand.perform c)

/-- The host's script from its next cycle on: what stands before it is dropped. -/
def fromNextCycle : List Command → List Command
  | [] => []
  | c :: cs => if c.isCycle then c :: cs else fromNextCycle cs

/-- The word `w` stands where the next fetch reads, and the next step is a cycle. -/
def State.withNextWord (s : State) (w : Word) : State :=
  let t := s.placeWord s.pc w
  { t with env := { t.env with script := fromNextCycle t.env.script } }

end Sys2Proof.Machine
end

