-- ==== Sys2Proof/Machine/Step.lean ====
section
/-! DEFINITION. One step of the machine, and how a word is put where the next step fetches. -/

namespace Sys2Proof.Machine

/-- One step (00_scope.md R1, 40_cycle.md R80). -/
def step (s : State) : Host.Outcome State Fault Refusal := s.move

/-- The state with the opcode table's word `w` stored where the next step fetches its instruction. -/
def State.withFetchWord (s : State) (nbits w : Nat) : State := s.withNextWord (tableWord nbits w)

end Sys2Proof.Machine
end

