-- ==== Sys2Proof/Safety.lean ====
section
/-! DEFINITION. What counts as a good state and a good run, and what an instruction may touch, in the terms the statements
use. -/

namespace Sys2Proof.Machine

/-- The invariant of the model: memory is in canonical form, so that equal memories are equal data. -/
def State.Inv (s : State) : Prop := s.mem.wf = true

/-- "Nothing went wrong": no reported condition since the flags were last cleared (60_exceptions.md R151). -/
def State.noCondition (s : State) : Bool := !s.flags.unrec && !s.flags.stkovf && !s.flags.stkunf

/-- The program has finished: PC rests on a jump to its own address (70_reset_and_hazards.md R179). A convention of
claims; the machine goes on. -/
def State.atEnd (s : State) : Bool :=
  match decode (s.fetch16 s.pc) with
  | .jump nnn => addr16 nnn == s.pc
  | _ => false

/-- The general registers an instruction may write (10_state.md R11): its destination, and VF for the six forms that write
it as a flag; a group for load-registers. -/
def mayWriteV : Instr → RegIx → Bool
  | .setImm x _, r | .addImm x _, r | .setReg x _, r | .orReg x _, r | .andReg x _, r | .xorReg x _, r => r == x
  | .random x _, r | .getDelayTimer x, r | .waitKey x, r => r == x
  | .addReg x _, r | .subReg x _, r | .shiftRight x _, r | .subRegReverse x _, r | .shiftLeft x _, r =>
    r == x || r == regVF
  | .draw _ _ _, r => r == regVF
  | .loadRegisters x, r => r ≤ x
  | .clearDisplay, _ | .ret, _ | .jump _, _ | .call _, _ | .skipEqImm _ _, _ | .skipNeImm _ _, _ | .skipEqReg _ _, _
  | .skipNeReg _ _, _ | .setIndex _, _ | .jumpOffset _, _ | .skipKeyPressed _, _ | .skipKeyNotPressed _, _
  | .setDelayTimer _, _ | .setSoundTimer _, _ | .addToIndex _, _ | .charSpriteAddress _, _ | .storeBcd _, _
  | .storeRegisters _, _ | .unrecognized _, _ => false

/-- How many columns, going right and wrapping, the pixel column px lies from column x0. -/
def colFrom (x0 : Nat) (px : Fin 64) : Nat := (px.val + 64 - x0 % 64) % 64

/-- How many rows, going down and wrapping, the pixel row py lies from row y0. -/
def rowFrom (y0 : Nat) (py : Fin 32) : Nat := (py.val + 32 - y0 % 32) % 32

/-- `draw Vx, Vy, #n` in state `s` has a set source bit for the pixel FB[px, py] (44_display.md R131, R132), said without
the loops of the rule: the pixel's distance from the origin is a column below 8 and a row below n, and that bit of that
sprite row is 1. -/
def State.spriteSets (s : State) (x y : RegIx) (n : Fin 16) (px : Fin 64) (py : Fin 32) : Bool :=
  let c := colFrom (originX (s.readV x)) px
  let r := rowFrom (originY (s.readV y)) py
  decide (c < 8) && decide (r < n.val) && spriteBit (s.memRead (s.effective r)) c

end Sys2Proof.Machine
end

