-- ==== Sys2Proof/Certificates/Slice0/Obligations.lean ====
section
/-! DEFINITION. The statements for the provers. `t = { s with … }` says that every field of the state not named there is
unchanged: registers, memory (so every byte of it), stack, timers, framebuffer, keys, flags, TRACE_EN and the model's own
fields. A result statement ends in "exec answers this next state", so it is also the instruction's completion and frame.
"Log n" is notes/assumptions/n.md. -/

open Sys2Proof Sys2Proof.Machine

/-! ### Register loads, arithmetic and logic (42_alu.md) -/

/-- R100: VX becomes NN; PC + 2; nothing else. -/
def Obligations.SetImmResult : Prop :=
  ∀ (x : RegIx) (nn : Byte) (s : State), ∃ t, exec (.setImm x nn) s = .next t ∧
    t = { s with v := t.v, pc := s.pc + 2#16 } ∧ ∀ r, t.readV r = if r = x then nn else s.readV r

/-- R101: VX becomes the sum modulo 256; no flag. -/
def Obligations.AddImmResult : Prop :=
  ∀ (x : RegIx) (nn : Byte) (s : State), ∃ t, exec (.addImm x nn) s = .next t ∧
    t = { s with v := t.v, pc := s.pc + 2#16 } ∧
    ∀ r, t.readV r = if r = x then BitVec.ofNat 8 ((s.readV x).toNat + nn.toNat) else s.readV r

/-- R102: VX becomes VY. -/
def Obligations.SetRegResult : Prop :=
  ∀ (x y : RegIx) (s : State), ∃ t, exec (.setReg x y) s = .next t ∧
    t = { s with v := t.v, pc := s.pc + 2#16 } ∧ ∀ r, t.readV r = if r = x then s.readV y else s.readV r

/-- R103, R104, R105, bit by bit: the three logic forms write VX and leave VF as it was (unless X = 0xF). -/
def Obligations.LogicResults : Prop :=
  ∀ (x y : RegIx) (s : State),
    (∃ t, exec (.orReg x y) s = .next t ∧ t = { s with v := t.v, pc := s.pc + 2#16 } ∧
      (∀ r, r ≠ x → t.readV r = s.readV r) ∧
      ∀ j, j < 8 → (t.readV x).getLsbD j = ((s.readV x).getLsbD j || (s.readV y).getLsbD j)) ∧
    (∃ t, exec (.andReg x y) s = .next t ∧ t = { s with v := t.v, pc := s.pc + 2#16 } ∧
      (∀ r, r ≠ x → t.readV r = s.readV r) ∧
      ∀ j, j < 8 → (t.readV x).getLsbD j = ((s.readV x).getLsbD j && (s.readV y).getLsbD j)) ∧
    (∃ t, exec (.xorReg x y) s = .next t ∧ t = { s with v := t.v, pc := s.pc + 2#16 } ∧
      (∀ r, r ≠ x → t.readV r = s.readV r) ∧
      ∀ j, j < 8 → (t.readV x).getLsbD j = ((s.readV x).getLsbD j ^^ (s.readV y).getLsbD j))

/-- add-reg: sum in VX, carry in VF. With X = 0xF the carry remains: the write order is the spec's decision D5 (log 9). -/
def Obligations.AddRegResult : Prop :=
  ∀ (x y : RegIx) (s : State), ∃ t, exec (.addReg x y) s = .next t ∧
    t = { s with v := t.v, pc := s.pc + 2#16 } ∧
    ∀ r, t.readV r =
      if r = 15 then (if 255 < (s.readV x).toNat + (s.readV y).toNat then 1#8 else 0#8)
      else if r = x then BitVec.ofNat 8 ((s.readV x).toNat + (s.readV y).toNat) else s.readV r

/-- sub-reg and sub-reg-reverse: difference in VX, STRICT not-borrow in VF. With X = 0xF the difference remains, and Y = 0xF
subtracts (from) the old VF: the order is the spec's decision D5 (log 9). -/
def Obligations.SubtractResults : Prop :=
  ∀ (x y : RegIx) (s : State),
    (∃ t, exec (.subReg x y) s = .next t ∧ t = { s with v := t.v, pc := s.pc + 2#16 } ∧
      ∀ r, t.readV r =
        if r = x then BitVec.ofNat 8 ((s.readV x).toNat + 256 - (s.readV y).toNat)
        else if r = 15 then (if (s.readV y).toNat < (s.readV x).toNat then 1#8 else 0#8) else s.readV r) ∧
    (∃ t, exec (.subRegReverse x y) s = .next t ∧ t = { s with v := t.v, pc := s.pc + 2#16 } ∧
      ∀ r, t.readV r =
        if r = x then BitVec.ofNat 8 ((s.readV y).toNat + 256 - (s.readV x).toNat)
        else if r = 15 then (if (s.readV x).toNat < (s.readV y).toNat then 1#8 else 0#8) else s.readV r)

/-- The shifts: VX by one position, the bit shifted out in VF, VY neither read nor written. With X = 0xF the shifted value
remains: the order is the spec's decision D5 (log 9). -/
def Obligations.ShiftResults : Prop :=
  ∀ (x y : RegIx) (s : State),
    (∃ t, exec (.shiftRight x y) s = .next t ∧ t = { s with v := t.v, pc := s.pc + 2#16 } ∧
      ∀ r, t.readV r =
        if r = x then BitVec.ofNat 8 ((s.readV x).toNat / 2)
        else if r = 15 then BitVec.ofNat 8 ((s.readV x).toNat % 2) else s.readV r) ∧
    (∃ t, exec (.shiftLeft x y) s = .next t ∧ t = { s with v := t.v, pc := s.pc + 2#16 } ∧
      ∀ r, t.readV r =
        if r = x then BitVec.ofNat 8 (2 * (s.readV x).toNat)
        else if r = 15 then BitVec.ofNat 8 ((s.readV x).toNat / 128) else s.readV r)

/-- random: VX becomes the cycle's random input masked with NN. Where the input comes from is the model's choice (log 1):
the host's next command if that is a cycle, else a free value; the statement holds for every one. -/
def Obligations.RandomResult : Prop :=
  ∀ (x : RegIx) (nn : Byte) (s : State),
    (∃ t, exec (.random x nn) s = .next t ∧ t = { s with v := t.v, pc := s.pc + 2#16 } ∧
      ∀ r, t.readV r = if r = x then s.rnd &&& nn else s.readV r) ∧
    (∀ b rest, s.env.script = .cycle b :: rest → s.rnd = b)

/-! ### Control transfer (41_control_flow.md, 40_cycle.md) -/

/-- R91: PC becomes NNN. -/
def Obligations.JumpResult : Prop :=
  ∀ (nnn : Addr12) (s : State), ∃ t, exec (.jump nnn) s = .next t ∧ t = { s with pc := t.pc } ∧ t.pc.toNat = nnn.toNat

/-- jump-offset: PC becomes NNN + V0, always V0, not reduced to 12 bits (the spec's decision D9, log 11). -/
def Obligations.JumpOffsetResult : Prop :=
  ∀ (nnn : Addr12) (s : State), ∃ t, exec (.jumpOffset nnn) s = .next t ∧ t = { s with pc := t.pc } ∧
    t.pc.toNat = nnn.toNat + (s.readV 0).toNat

/-- call: pushes its own address and jumps; with a full stack it reports STKOVF and steps on. The push convention and the
full-stack policy are the spec's decisions D6 and D7 (log 10). -/
def Obligations.CallResult : Prop :=
  ∀ (nnn : Addr12) (s : State),
    (s.sp.val < 16 → ∃ t, exec (.call nnn) s = .next t ∧
      t = { s with stack := t.stack, sp := t.sp, pc := t.pc } ∧
      t.pc.toNat = nnn.toNat ∧ t.sp.val = s.sp.val + 1 ∧
      ∀ j : Fin 16, t.stack[j.val] = if j.val = s.sp.val then s.pc else s.stack[j.val]) ∧
    (s.sp.val = 16 → exec (.call nnn) s =
      .next { s with pc := s.pc + 2#16, flags := { s.flags with stkovf := true } })

/-- return: pops the call's address and goes on after it, the entry left as it was; with an empty stack it reports STKUNF
and steps on. The pop convention and the empty-stack policy are the spec's decisions D6 and D7 (log 10). -/
def Obligations.ReturnResult : Prop :=
  ∀ s : State,
    (∀ j : Fin 16, s.sp.val = j.val + 1 → ∃ t, exec .ret s = .next t ∧
      t = { s with sp := t.sp, pc := s.stack[j.val] + 2#16 } ∧ t.sp.val = j.val) ∧
    (s.sp.val = 0 → exec .ret s = .next { s with pc := s.pc + 2#16, flags := { s.flags with stkunf := true } })

/-- R93 to R96: the four register skips move PC by 4 or by 2 and do nothing else. -/
def Obligations.RegisterSkipResults : Prop :=
  ∀ (x y : RegIx) (nn : Byte) (s : State),
    exec (.skipEqImm x nn) s = .next { s with pc := if s.readV x = nn then s.pc + 4#16 else s.pc + 2#16 } ∧
    exec (.skipNeImm x nn) s = .next { s with pc := if s.readV x ≠ nn then s.pc + 4#16 else s.pc + 2#16 } ∧
    exec (.skipEqReg x y) s = .next { s with pc := if s.readV x = s.readV y then s.pc + 4#16 else s.pc + 2#16 } ∧
    exec (.skipNeReg x y) s = .next { s with pc := if s.readV x ≠ s.readV y then s.pc + 4#16 else s.pc + 2#16 }

/-- R84, the execute step: UNREC is set and PC steps on, whatever the word is. -/
def Obligations.UnrecognizedResult : Prop :=
  ∀ (w : Word) (s : State),
    exec (.unrecognized w) s = .next { s with pc := s.pc + 2#16, flags := { s.flags with unrec := true } }

/-- A whole cycle on a word that 30_encoding.md lists as unrecognized: UNREC, PC + 2, the tick, nothing else. Which words
they are is the spec's decision D2 (log 7); `cycleDue` and the env are the model's (log 2). -/
def Obligations.UnrecognizedWordCycle : Prop :=
  ∀ s : State, s.cycleDue = true → unrecognizedWord (s.fetch16 s.pc) = true → ∃ t, step s = .next t ∧
    t = { s with pc := s.pc + 2#16, dt := t.dt, st := t.st, flags := t.flags, env := t.env } ∧
    t.dt.toNat = s.dt.toNat - 1 ∧ t.st.toNat = s.st.toNat - 1 ∧
    t.flags = { s.flags with unrec := true, sndstop := s.flags.sndstop || decide (s.st = 1#8) }

/-- A call and its return: control resumes after the call, SP and the entries below are as before, nothing else has
changed. Rests on the spec's decision D6 (log 10). -/
def Obligations.CallThenReturn : Prop :=
  ∀ (nnn : Addr12) (s : State), s.sp.val < 16 → ∃ t u, exec (.call nnn) s = .next t ∧ exec .ret t = .next u ∧
    u = { s with pc := s.pc + 2#16, stack := u.stack } ∧
    ∀ j : Fin 16, j.val ≠ s.sp.val → u.stack[j.val] = s.stack[j.val]

/-! ### Index register and memory (43_index_memory.md, 20_memory.md) -/

/-- R120, R121, R122: the three forms that write I. -/
def Obligations.IndexResults : Prop :=
  ∀ (nnn : Addr12) (x : RegIx) (s : State),
    (∃ t, exec (.setIndex nnn) s = .next t ∧ t = { s with i := t.i, pc := s.pc + 2#16 } ∧ t.i.toNat = nnn.toNat) ∧
    (∃ t, exec (.addToIndex x) s = .next t ∧ t = { s with i := t.i, pc := s.pc + 2#16 } ∧
      t.i.toNat = (s.i.toNat + (s.readV x).toNat) % 65536) ∧
    (∃ t, exec (.charSpriteAddress x) s = .next t ∧ t = { s with i := t.i, pc := s.pc + 2#16 } ∧
      t.i.toNat = (s.readV x).toNat * 5)

/-- store-bcd: the digits of VX at I, I + 1, I + 2, each address reduced modulo 4096; every other byte, and I, as before.
The reduction is the spec's decision D8 (log 11), I unchanged D23 (log 14). -/
def Obligations.StoreBcdResult : Prop :=
  ∀ (x : RegIx) (s : State), ∃ t, exec (.storeBcd x) s = .next t ∧ t = { s with mem := t.mem, pc := s.pc + 2#16 } ∧
    ∀ a, t.memRead a =
      if memAddress a = memAddress (s.effective 0) then BitVec.ofNat 8 ((s.readV x).toNat / 100)
      else if memAddress a = memAddress (s.effective 1) then BitVec.ofNat 8 ((s.readV x).toNat / 10 % 10)
      else if memAddress a = memAddress (s.effective 2) then BitVec.ofNat 8 ((s.readV x).toNat % 10)
      else s.memRead a

/-- store-registers: V0 to VX at I to I + X, each address reduced modulo 4096; every other byte, and I, as before. The
reduction is the spec's decision D8 (log 11), I unchanged D23 (log 14). -/
def Obligations.StoreRegistersResult : Prop :=
  ∀ (x : RegIx) (s : State), ∃ t, exec (.storeRegisters x) s = .next t ∧
    t = { s with mem := t.mem, pc := s.pc + 2#16 } ∧
    (∀ r, r ≤ x → ∀ a, memAddress a = memAddress (s.effective r.val) → t.memRead a = s.readV r) ∧
    ∀ a, (∀ r, r ≤ x → memAddress a ≠ memAddress (s.effective r.val)) → t.memRead a = s.memRead a

/-- load-registers: V0 to VX from MEM at I to I + X; the other registers, I and memory as before. Address reduction is the
spec's decision D8 (log 11), I unchanged D23 (log 14). -/
def Obligations.LoadRegistersResult : Prop :=
  ∀ (x : RegIx) (s : State), ∃ t, exec (.loadRegisters x) s = .next t ∧ t = { s with v := t.v, pc := s.pc + 2#16 } ∧
    ∀ r, t.readV r = if r ≤ x then s.memRead (s.effective r.val) else s.readV r

/-- What store-registers stored, load-registers brings back, whatever the registers hold in between. -/
def Obligations.StoreThenLoadRestores : Prop :=
  ∀ (x : RegIx) (s : State) (v' : Vector Byte 16), ∃ t u, exec (.storeRegisters x) s = .next t ∧
    exec (.loadRegisters x) { t with v := v' } = .next u ∧ u.i = s.i ∧
    ∀ r, u.readV r = if r ≤ x then s.readV r else v'[r.val]

/-- MemWrite then MemRead: the written byte at every number that reduces to the same address, the old byte elsewhere; and
nothing but memory changes. The reduction modulo 4096 is the spec's decision D8 (log 11). -/
def Obligations.ReadAfterWrite : Prop :=
  ∀ (s : State) (a c : Nat) (b : Byte),
    (s.memWrite a b).memRead c = (if c % 4096 = a % 4096 then b else s.memRead c) ∧
    s.memWrite a b = { s with mem := (s.memWrite a b).mem }

/-- Bytes stored at PC and PC + 1 are the word the next fetch reads, high byte first, wrapping past 0xFFF included
(decision D8, log 11). -/
def Obligations.StoredBytesAreFetched : Prop :=
  ∀ (s : State) (pc : Word) (hi lo : Byte),
    (((s.memWrite pc.toNat hi).memWrite (pc.toNat + 1) lo).fetch16 pc).toNat = hi.toNat * 256 + lo.toNat

/-! ### Framebuffer (44_display.md) -/

/-- R130: every pixel 0, REDRAW set, PC + 2, nothing else. -/
def Obligations.ClearDisplayResult : Prop :=
  ∀ s : State, ∃ t, exec .clearDisplay s = .next t ∧
    t = { s with fb := t.fb, pc := s.pc + 2#16, flags := { s.flags with redraw := true } } ∧
    ∀ px py, t.fb.pixel px py = false

/-- draw, said without its loops: every pixel is XORed with the sprite's bit for it, VF is 1 exactly when a set pixel had a
set source bit, REDRAW is set, nothing else changes. Rests on the spec's decisions D4 (bit order, log 13), D5 (log 9), D8
(log 11) and D17 (N = 0, log 14). -/
def Obligations.DrawResult : Prop :=
  ∀ (x y : RegIx) (n : Fin 16) (s : State), ∃ t, exec (.draw x y n) s = .next t ∧
    t = { s with v := t.v, fb := t.fb, pc := s.pc + 2#16, flags := { s.flags with redraw := true } } ∧
    (∀ px py, t.fb.pixel px py = (s.fb.pixel px py ^^ s.spriteSets x y n px py)) ∧
    (∀ r, r ≠ 15 → t.readV r = s.readV r) ∧
    (t.readV 15 = 0#8 ∨ t.readV 15 = 1#8) ∧
    (t.readV 15 = 1#8 ↔ ∃ px py, s.fb.pixel px py = true ∧ t.fb.pixel px py = false)

/-- Drawing the same sprite twice at the same position restores the picture, and the second draw collides exactly when the
first one set a pixel (95_test_vectors.md S5). X = 0xF and Y = 0xF are left out because the first draw then changes the
position. Rests on decisions D4, D5, D8 (logs 13, 9, 11). -/
def Obligations.DrawTwiceRestores : Prop :=
  ∀ (x y : RegIx) (n : Fin 16) (s : State), x ≠ 15 → y ≠ 15 → ∃ t u, exec (.draw x y n) s = .next t ∧
    exec (.draw x y n) t = .next u ∧ u.fb = s.fb ∧
    (u.readV 15 = 1#8 ↔ ∃ px py, s.fb.pixel px py = false ∧ t.fb.pixel px py = true)

/-! ### Timers and keypad (45_timers_input.md, 60_exceptions.md) -/

/-- R140, R141, R142: the timer forms, and what the tick of the same cycle then makes of the timer. -/
def Obligations.TimerAccessResults : Prop :=
  ∀ (x : RegIx) (s : State),
    (∃ t, exec (.getDelayTimer x) s = .next t ∧ t = { s with v := t.v, pc := s.pc + 2#16 } ∧
      (∀ r, t.readV r = if r = x then s.dt else s.readV r) ∧ t.tick.dt.toNat = s.dt.toNat - 1) ∧
    (∃ t, exec (.setDelayTimer x) s = .next t ∧ t = { s with dt := s.readV x, pc := s.pc + 2#16 } ∧
      t.tick.dt.toNat = (s.readV x).toNat - 1) ∧
    (∃ t, exec (.setSoundTimer x) s = .next t ∧ t = { s with st := s.readV x, pc := s.pc + 2#16 } ∧
      t.tick.st.toNat = (s.readV x).toNat - 1 ∧
      t.tick.flags.sndstop = (s.flags.sndstop || decide (s.readV x = 1#8)))

/-- The key skips test the level of key VX mod 16 and write no register. The reduction is the spec's decision D10 (log
12). -/
def Obligations.KeySkipResults : Prop :=
  ∀ (x : RegIx) (k : Fin 16) (s : State), (s.readV x).toNat % 16 = k.val →
    exec (.skipKeyPressed x) s = .next { s with pc := if s.keyDown k = true then s.pc + 4#16 else s.pc + 2#16 } ∧
    exec (.skipKeyNotPressed x) s = .next { s with pc := if s.keyDown k = false then s.pc + 4#16 else s.pc + 2#16 }

/-- wait-key: the least pressed key into VX and PC + 2; with no key pressed, nothing changes. The least key is the spec's
decision D11 (log 12). -/
def Obligations.WaitKeyResult : Prop :=
  ∀ (x : RegIx) (s : State),
    (∀ k : Fin 16, s.keyDown k = true → (∀ j, j < k → s.keyDown j = false) → ∃ t, exec (.waitKey x) s = .next t ∧
      t = { s with v := t.v, pc := s.pc + 2#16 } ∧
      ∀ r, t.readV r = if r = x then BitVec.ofNat 8 k.val else s.readV r) ∧
    ((∀ k, s.keyDown k = false) → exec (.waitKey x) s = .next s)

/-- A held cycle: wait-key at PC and no key pressed change nothing of the machine, the timers included; only the model's
env moves on, with a trace record if TRACE_EN is set. The skipped tick is the spec's decision D12, conflict C1 (log 8). -/
def Obligations.HeldCycleIsIdentity : Prop :=
  ∀ (x : RegIx) (s : State), s.cycleDue = true → decode (s.fetch16 s.pc) = .waitKey x →
    (∀ k, s.keyDown k = false) →
    step s = .next { s with env :=
      { script := s.env.script.tail, draws := s.env.draws + 1,
        out := if s.traceEn = true then s.env.out ++ [.trace s.pc (s.fetch16 s.pc)] else s.env.out } }

/-- The tick of a completed cycle: each timer counts down to 0 and stays there, from the value execute left, and SNDSTOP is
set when ST goes from 1 to 0. That a completed cycle always ticks, and no other way, is the spec's decisions D12 and D16
(log 8). -/
def Obligations.CompletedCycleTicks : Prop :=
  ∀ s : State, s.cycleDue = true → s.awaitingKey = false →
    ∃ u t, exec (decode (s.fetch16 s.pc)) (s.emitTrace (s.fetch16 s.pc)) = .next u ∧ step s = .next t ∧
      t = { u with dt := t.dt, st := t.st, flags := t.flags, env := t.env } ∧
      t.dt.toNat = u.dt.toNat - 1 ∧ t.st.toNat = u.st.toNat - 1 ∧
      t.flags = { u.flags with sndstop := u.flags.sndstop || decide (u.st = 1#8) }

/-- No instruction's execution touches SNDSTOP; a cycle sets it exactly when its tick takes ST from 1 to 0, and never clears
it; of the host's operations none sets it, and only `ClearFlags` naming it and `Reset` clear it. That a held cycle does not
tick, and so never sets SNDSTOP, is the spec's decision D12, conflict C1 (log 8); that the core never clears the flag is
decision D14 (log 14); `cycleDue` and the host's script are the model's (log 2). -/
def Obligations.SoundStopOnlyByTick : Prop :=
  (∀ (i : Instr) (s t : State), exec i s = .next t → t.flags.sndstop = s.flags.sndstop) ∧
  (∀ s : State, s.cycleDue = true → ∃ u t,
    exec (decode (s.fetch16 s.pc)) (s.emitTrace (s.fetch16 s.pc)) = .next u ∧ step s = .next t ∧
    (t.flags.sndstop = true ↔ s.flags.sndstop = true ∨ (s.awaitingKey = false ∧ u.st = 1#8 ∧ t.st = 0#8))) ∧
  ∀ (s : State) (c : Command) (rest : List Command), s.env.script = c :: rest → c.isCycle = false →
    ∃ t, step s = .next t ∧
      (t.flags.sndstop = true ↔
        s.flags.sndstop = true ∧ c ≠ .reset ∧ ∀ ns, c = .clearFlags ns → ReportFlag.sndstop ∉ ns)

/-! ### The cycle and the whole machine (40_cycle.md, 10_state.md, 60_exceptions.md) -/

/-- A step runs the instruction that the two bytes at PC decode to: the trace record, the execute step, then the tick
unless wait-key holds; then the env moves on. The env and the host's script are the model's (logs 1, 2, 4), the skipped tick
the spec's decision D12 (log 8). -/
def Obligations.StepRunsDecodedInstruction : Prop :=
  ∀ (s : State) (i : Instr), s.cycleDue = true →
    decodeBytes [s.memRead s.pc.toNat, s.memRead (s.pc.toNat + 1)] = .ok (i, []) →
    ∃ t, exec i (s.emitTrace (s.fetch16 s.pc)) = .next t ∧
      (s.traceEn = false → s.emitTrace (s.fetch16 s.pc) = s) ∧
      (s.traceEn = true → s.emitTrace (s.fetch16 s.pc) =
        { s with env := { s.env with out := s.env.out ++ [.trace s.pc (s.fetch16 s.pc)] } }) ∧
      ((∃ x, i = .waitKey x) ∧ (∀ k, s.keyDown k = false) → step s = .next t.endInput) ∧
      (¬ ((∃ x, i = .waitKey x) ∧ ∀ k, s.keyDown k = false) → step s = .next t.tick.endInput)

/-- R150: no instruction, with any operands, in any state, and no step, faults or is refused. -/
def Obligations.EveryStepAnswersNext : Prop :=
  (∀ (i : Instr) (s : State), ∃ t, exec i s = .next t) ∧ ∀ s : State, ∃ t, step s = .next t

/-- The table of PC outcomes of 10_state.md, over all instructions. Keeping PC at 16 bits is the spec's decision D9 (log 11),
the stack cases D7 (log 10). -/
def Obligations.PcOutcomes : Prop :=
  ∀ (i : Instr) (s t : State), exec i s = .next t →
    match i with
    | .jump nnn => t.pc.toNat = nnn.toNat
    | .jumpOffset nnn => t.pc.toNat = nnn.toNat + (s.readV 0).toNat
    | .call nnn => (s.sp.val < 16 → t.pc.toNat = nnn.toNat) ∧ (s.sp.val = 16 → t.pc = s.pc + 2#16)
    | .ret => (∀ j : Fin 16, s.sp.val = j.val + 1 → t.pc = s.stack[j.val] + 2#16) ∧ (s.sp.val = 0 → t.pc = s.pc + 2#16)
    | .skipEqImm _ _ | .skipNeImm _ _ | .skipEqReg _ _ | .skipNeReg _ _ | .skipKeyPressed _ | .skipKeyNotPressed _ =>
      t.pc = s.pc + 2#16 ∨ t.pc = s.pc + 4#16
    | .waitKey _ => t.pc = if ∀ k, s.keyDown k = false then s.pc else s.pc + 2#16
    | _ => t.pc = s.pc + 2#16

/-- Who writes what, over all instructions: each piece of state outside the general registers changes only by the forms that
10_state.md names for it. -/
def Obligations.OnlyNamedFormsWrite : Prop :=
  ∀ (i : Instr) (s t : State), exec i s = .next t →
    t.key = s.key ∧ t.traceEn = s.traceEn ∧ t.env = s.env ∧
    (t.i ≠ s.i → (∃ nnn, i = .setIndex nnn) ∨ (∃ x, i = .addToIndex x) ∨ ∃ x, i = .charSpriteAddress x) ∧
    (t.stack ≠ s.stack → ∃ nnn, i = .call nnn) ∧
    (t.sp ≠ s.sp → (∃ nnn, i = .call nnn) ∨ i = .ret) ∧
    (t.dt ≠ s.dt → ∃ x, i = .setDelayTimer x) ∧
    (t.st ≠ s.st → ∃ x, i = .setSoundTimer x) ∧
    (t.fb ≠ s.fb → i = .clearDisplay ∨ ∃ x y n, i = .draw x y n) ∧
    (t.mem ≠ s.mem → (∃ x, i = .storeBcd x) ∨ ∃ x, i = .storeRegisters x) ∧
    (t.flags ≠ s.flags → i = .clearDisplay ∨ (∃ x y n, i = .draw x y n) ∨ i = .ret ∨ (∃ nnn, i = .call nnn) ∨
      ∃ w, i = .unrecognized w)

/-- A register changes only if the instruction may write it: its destination, VF for the six flag-writing forms, V0 to VX
for load-registers. -/
def Obligations.OnlyDestinationsChange : Prop :=
  ∀ (i : Instr) (s t : State), exec i s = .next t → ∀ r, mayWriteV i r = false → t.readV r = s.readV r

/-- After a flag-writing form VF is 0 or 1, except where X = 0xF lets the result remain (decision D5, log 9). -/
def Obligations.FlagRegisterIsZeroOrOne : Prop :=
  ∀ (x y : RegIx) (n : Fin 16) (i : Instr) (s t : State), exec i s = .next t →
    (i = .addReg x y ∨ i = .draw x y n ∨
      (x ≠ 15 ∧ (i = .subReg x y ∨ i = .subRegReverse x y ∨ i = .shiftRight x y ∨ i = .shiftLeft x y))) →
    t.readV 15 = 0#8 ∨ t.readV 15 = 1#8

/-- The core never clears a report flag (sticky flags: the spec's decision D14, log 14). -/
def Obligations.CyclesKeepFlagsSet : Prop :=
  ∀ s : State, s.cycleDue = true → ∃ t, step s = .next t ∧ ∀ n, s.flags.get n = true → t.flags.get n = true

/-- No cycle's outcome depends on the report flags: with other flags, the same state but for the flags (decision D14,
log 14). -/
def Obligations.FlagsDoNotInfluence : Prop :=
  ∀ (s : State) (f : ReportFlags), s.cycleDue = true →
    ∃ t g, step s = .next t ∧ step { s with flags := f } = .next { t with flags := g }

/-- TRACE_EN has no effect but the records given out (R86's promise; the record list is the model's, log 4). -/
def Obligations.TraceDoesNotInfluence : Prop :=
  ∀ (s : State) (b : Bool), s.cycleDue = true →
    ∃ t o, step s = .next t ∧ step { s with traceEn := b } = .next { t with traceEn := b, env := { t.env with out := o } }

/-- Only `random` reads the random input: on any other instruction, two cycles with different inputs end alike (the
spec's decision D15; the input's place in the script is the model's, logs 1 and 2). -/
def Obligations.OnlyRandomReadsInput : Prop :=
  ∀ (s : State) (r r' : Byte) (rest : List Command),
    (∀ x nn, decode (s.fetch16 s.pc) ≠ .random x nn) →
    step { s with env := { s.env with script := .cycle r :: rest } } =
      step { s with env := { s.env with script := .cycle r' :: rest } }

/-- The end of a run: at a jump to itself a cycle changes only the timers, SNDSTOP and the model's env (the convention is the
spec's decision D21). -/
def Obligations.JumpToSelfOnlyTicks : Prop :=
  ∀ s : State, s.cycleDue = true → s.atEnd = true → ∃ t, step s = .next t ∧
    t = { s with dt := t.dt, st := t.st, flags := t.flags, env := t.env } ∧
    t.dt.toNat = s.dt.toNat - 1 ∧ t.st.toNat = s.st.toNat - 1 ∧
    t.flags = { s.flags with sndstop := s.flags.sndstop || decide (s.st = 1#8) }

/-- The invariant holds after reset. -/
def Obligations.ResetMeetsInvariant : Prop := State.reset.Inv

/-- Every step, of the core's or of the host's, keeps memory in canonical form (the form is the model's, log 6). -/
def Obligations.StepKeepsInvariant : Prop := ∀ s t : State, s.Inv → step s = .next t → t.Inv

/-! ### Reset and the host's operations (70_reset_and_hazards.md, 60_exceptions.md) -/

/-- The state after reset, piece by piece. PC's 0x200 is the spec's decision D13 (conflict C2), FONT a parameter with its
default (log 6), SP a count (log 5). -/
def Obligations.ResetValues : Prop :=
  let s := State.reset
  (∀ r, s.readV r = 0#8) ∧ s.i = 0#16 ∧ s.pc = 0x200#16 ∧ (∀ j : Fin 16, s.stack[j.val] = 0#16) ∧ s.sp.val = 0 ∧
  s.dt = 0#8 ∧ s.st = 0#8 ∧ (∀ px py, s.fb.pixel px py = false) ∧ (∀ k, s.keyDown k = false) ∧
  (∀ n, s.flags.get n = false) ∧ s.traceEn = false ∧ Config.font.length = 80 ∧
  (∀ a, a < 80 → s.memRead a = Config.font.getD a 0#8) ∧ ∀ a, 80 ≤ a → a < 4096 → s.memRead a = 0#8

/-- The host's `Reset`, at any time: the machine is as after reset; the model's env goes on. Repeating it on a running
machine is the spec's decision D13 (log 16), the script the model's (log 2). -/
def Obligations.HostResetRestores : Prop :=
  ∀ (s : State) (rest : List Command), s.env.script = .reset :: rest →
    step s = .next { State.reset with env := { s.env with script := rest } }

/-- The host's `Load`: at most 3584 bytes go to 0x200 upward and nothing else changes; more are rejected and nothing
changes; the answer is given out. `Load` at any time is the spec's decision D24 (log 16), the answer's place the model's
(logs 2, 4). -/
def Obligations.LoadWritesProgram : Prop :=
  ∀ (s : State) (bytes : List Byte) (rest : List Command), s.env.script = .load bytes :: rest →
    (bytes.length ≤ 3584 → ∃ t, step s = .next t ∧
      t = { s with mem := t.mem, env := { s.env with script := rest, out := s.env.out ++ [.loadResult true] } } ∧
      (∀ k (h : k < bytes.length), t.memRead (0x200 + k) = bytes[k]) ∧
      ∀ a, a < 4096 → (a < 0x200 ∨ 0x200 + bytes.length ≤ a) → t.memRead a = s.memRead a) ∧
    (3584 < bytes.length → step s =
      .next { s with env := { s.env with script := rest, out := s.env.out ++ [.loadResult false] } })

/-- R164: `SetKey(k, b)` sets the one KEY flag k, and with k outside 0 to 15 it changes nothing. (That it is a command in the
model's script is log 2.) -/
def Obligations.SetKeySetsOneKey : Prop :=
  ∀ (s : State) (k : Int) (b : Bool) (rest : List Command), s.env.script = .setKey k b :: rest →
    ∃ t, step s = .next t ∧ t = { s with key := t.key, env := { s.env with script := rest } } ∧
      ∀ j : Fin 16, t.keyDown j = if k = (j.val : Int) then b else s.keyDown j

/-- `ClearFlags(set)`: exactly the named flags become 0 (decision D14, log 14; the command list is log 2). -/
def Obligations.ClearFlagsClearsTheSet : Prop :=
  ∀ (s : State) (ns : List ReportFlag) (rest : List Command), s.env.script = .clearFlags ns :: rest →
    ∃ t, step s = .next t ∧ t = { s with flags := t.flags, env := { s.env with script := rest } } ∧
      ∀ n, t.flags.get n = if n ∈ ns then false else s.flags.get n

/-- `SetTrace(b)` writes TRACE_EN and nothing else; `ReadFB()` gives out the grid and changes nothing. (Commands and outputs
are the model's lists: logs 2, 4.) -/
def Obligations.SetTraceAndReadFB : Prop :=
  ∀ (s : State) (rest : List Command),
    (∀ b, s.env.script = .setTrace b :: rest →
      step s = .next { s with traceEn := b, env := { s.env with script := rest } }) ∧
    (s.env.script = .readFB :: rest →
      step s = .next { s with env := { s.env with script := rest, out := s.env.out ++ [.frame s.fb] } })

/-! ### Encoding (30_encoding.md) -/

/-- Decode and encode agree, one way: every well-formed instruction is what its word decodes to. The bit patterns of 30 rows
are the spec's from general knowledge (D1, log 7); that shifts carry Y and `unrecognized` its word is log 15. -/
def Obligations.DecodeOfEncode : Prop := ∀ i : Instr, i.wf = true → decode (encode i) = i

/-- And the other way: every one of the 65536 words decodes to a well-formed instruction whose word it is, so no bit of a
word is dropped (logs 7 and 15). -/
def Obligations.EncodeOfDecode : Prop := ∀ w : Word, (decode w).wf = true ∧ encode (decode w) = w

/-- The rows of the opcode map are pairwise disjoint: no word satisfies two of them, and decoding to a form is matching its
row (R64's scheme on the map of D1, log 7). -/
def Obligations.RowsAreDisjoint : Prop :=
  ∀ (w : Word) (f : Form), f ∈ opcodeMap ∧ (matchesRow w f = true ↔ (decode w).form = some f)

/-- The words that decode to no form are exactly the ones that 30_encoding.md lists nibble by nibble (decision D2, log 7). -/
def Obligations.UnrecognizedWordsAreTheListed : Prop :=
  ∀ w : Word, decode w = .unrecognized w ↔ unrecognizedWord w = true

/-- Words written out from the encodings: the four that the source shows (600A, 7005, A200, D005) and one of each other
format (map of D1, log 7). -/
def Obligations.WrittenOutWordsDecode : Prop :=
  decode 0b0110000000001010#16 = .setImm 0 0x0A#8 ∧ decode 0b0111000000000101#16 = .addImm 0 0x05#8 ∧
  decode 0b1010001000000000#16 = .setIndex 0x200#12 ∧ decode 0b1101000000000101#16 = .draw 0 0 5 ∧
  decode 0b0000000011100000#16 = .clearDisplay ∧ decode 0b0000000011101110#16 = .ret ∧
  decode 0b1000000100100100#16 = .addReg 1 2 ∧ decode 0b1111001001100101#16 = .loadRegisters 2 ∧
  decode 0b0000000000000000#16 = .unrecognized 0#16
end

