-- ==== Sys2Proof/Laws/State.lean ====
section
/-! SUPPORT. One lemma per field of State and update, each true by rfl, so that no later proof unfolds a record update. -/

namespace Sys2Proof.Machine

/-! ### writeV -/

@[simp] theorem State.writeV_v (s : State) (x : RegIx) (b : Byte) : (s.writeV x b).v = s.v.set x.val b := rfl
@[simp] theorem State.writeV_i (s : State) (x : RegIx) (b : Byte) : (s.writeV x b).i = s.i := rfl
@[simp] theorem State.writeV_pc (s : State) (x : RegIx) (b : Byte) : (s.writeV x b).pc = s.pc := rfl
@[simp] theorem State.writeV_stack (s : State) (x : RegIx) (b : Byte) : (s.writeV x b).stack = s.stack := rfl
@[simp] theorem State.writeV_sp (s : State) (x : RegIx) (b : Byte) : (s.writeV x b).sp = s.sp := rfl
@[simp] theorem State.writeV_dt (s : State) (x : RegIx) (b : Byte) : (s.writeV x b).dt = s.dt := rfl
@[simp] theorem State.writeV_st (s : State) (x : RegIx) (b : Byte) : (s.writeV x b).st = s.st := rfl
@[simp] theorem State.writeV_fb (s : State) (x : RegIx) (b : Byte) : (s.writeV x b).fb = s.fb := rfl
@[simp] theorem State.writeV_key (s : State) (x : RegIx) (b : Byte) : (s.writeV x b).key = s.key := rfl
@[simp] theorem State.writeV_flags (s : State) (x : RegIx) (b : Byte) : (s.writeV x b).flags = s.flags := rfl
@[simp] theorem State.writeV_mem (s : State) (x : RegIx) (b : Byte) : (s.writeV x b).mem = s.mem := rfl
@[simp] theorem State.writeV_traceEn (s : State) (x : RegIx) (b : Byte) : (s.writeV x b).traceEn = s.traceEn := rfl
@[simp] theorem State.writeV_env (s : State) (x : RegIx) (b : Byte) : (s.writeV x b).env = s.env := rfl

/-! ### memWrite -/

@[simp] theorem State.memWrite_v (s : State) (a : Nat) (b : Byte) : (s.memWrite a b).v = s.v := rfl
@[simp] theorem State.memWrite_i (s : State) (a : Nat) (b : Byte) : (s.memWrite a b).i = s.i := rfl
@[simp] theorem State.memWrite_pc (s : State) (a : Nat) (b : Byte) : (s.memWrite a b).pc = s.pc := rfl
@[simp] theorem State.memWrite_stack (s : State) (a : Nat) (b : Byte) : (s.memWrite a b).stack = s.stack := rfl
@[simp] theorem State.memWrite_sp (s : State) (a : Nat) (b : Byte) : (s.memWrite a b).sp = s.sp := rfl
@[simp] theorem State.memWrite_dt (s : State) (a : Nat) (b : Byte) : (s.memWrite a b).dt = s.dt := rfl
@[simp] theorem State.memWrite_st (s : State) (a : Nat) (b : Byte) : (s.memWrite a b).st = s.st := rfl
@[simp] theorem State.memWrite_fb (s : State) (a : Nat) (b : Byte) : (s.memWrite a b).fb = s.fb := rfl
@[simp] theorem State.memWrite_key (s : State) (a : Nat) (b : Byte) : (s.memWrite a b).key = s.key := rfl
@[simp] theorem State.memWrite_flags (s : State) (a : Nat) (b : Byte) : (s.memWrite a b).flags = s.flags := rfl
@[simp] theorem State.memWrite_mem (s : State) (a : Nat) (b : Byte) : (s.memWrite a b).mem = s.mem.put (memAddress a) b := rfl
@[simp] theorem State.memWrite_traceEn (s : State) (a : Nat) (b : Byte) : (s.memWrite a b).traceEn = s.traceEn := rfl
@[simp] theorem State.memWrite_env (s : State) (a : Nat) (b : Byte) : (s.memWrite a b).env = s.env := rfl

/-! ### writeBytes -/

@[simp] theorem State.writeBytes_v (s : State) (a : Nat) (bs : List Byte) : (s.writeBytes a bs).v = s.v := rfl
@[simp] theorem State.writeBytes_i (s : State) (a : Nat) (bs : List Byte) : (s.writeBytes a bs).i = s.i := rfl
@[simp] theorem State.writeBytes_pc (s : State) (a : Nat) (bs : List Byte) : (s.writeBytes a bs).pc = s.pc := rfl
@[simp] theorem State.writeBytes_stack (s : State) (a : Nat) (bs : List Byte) : (s.writeBytes a bs).stack = s.stack := rfl
@[simp] theorem State.writeBytes_sp (s : State) (a : Nat) (bs : List Byte) : (s.writeBytes a bs).sp = s.sp := rfl
@[simp] theorem State.writeBytes_dt (s : State) (a : Nat) (bs : List Byte) : (s.writeBytes a bs).dt = s.dt := rfl
@[simp] theorem State.writeBytes_st (s : State) (a : Nat) (bs : List Byte) : (s.writeBytes a bs).st = s.st := rfl
@[simp] theorem State.writeBytes_fb (s : State) (a : Nat) (bs : List Byte) : (s.writeBytes a bs).fb = s.fb := rfl
@[simp] theorem State.writeBytes_key (s : State) (a : Nat) (bs : List Byte) : (s.writeBytes a bs).key = s.key := rfl
@[simp] theorem State.writeBytes_flags (s : State) (a : Nat) (bs : List Byte) : (s.writeBytes a bs).flags = s.flags := rfl
@[simp] theorem State.writeBytes_mem (s : State) (a : Nat) (bs : List Byte) : (s.writeBytes a bs).mem = s.mem.putBytes a bs := rfl
@[simp] theorem State.writeBytes_traceEn (s : State) (a : Nat) (bs : List Byte) : (s.writeBytes a bs).traceEn = s.traceEn := rfl
@[simp] theorem State.writeBytes_env (s : State) (a : Nat) (bs : List Byte) : (s.writeBytes a bs).env = s.env := rfl

/-! ### advance -/

@[simp] theorem State.advance_v (s : State) : (s.advance).v = s.v := rfl
@[simp] theorem State.advance_i (s : State) : (s.advance).i = s.i := rfl
@[simp] theorem State.advance_pc (s : State) : (s.advance).pc = s.pc + 2#16 := rfl
@[simp] theorem State.advance_stack (s : State) : (s.advance).stack = s.stack := rfl
@[simp] theorem State.advance_sp (s : State) : (s.advance).sp = s.sp := rfl
@[simp] theorem State.advance_dt (s : State) : (s.advance).dt = s.dt := rfl
@[simp] theorem State.advance_st (s : State) : (s.advance).st = s.st := rfl
@[simp] theorem State.advance_fb (s : State) : (s.advance).fb = s.fb := rfl
@[simp] theorem State.advance_key (s : State) : (s.advance).key = s.key := rfl
@[simp] theorem State.advance_flags (s : State) : (s.advance).flags = s.flags := rfl
@[simp] theorem State.advance_mem (s : State) : (s.advance).mem = s.mem := rfl
@[simp] theorem State.advance_traceEn (s : State) : (s.advance).traceEn = s.traceEn := rfl
@[simp] theorem State.advance_env (s : State) : (s.advance).env = s.env := rfl

/-! ### skipIf -/

@[simp] theorem State.skipIf_v (s : State) (c : Bool) : (s.skipIf c).v = s.v := rfl
@[simp] theorem State.skipIf_i (s : State) (c : Bool) : (s.skipIf c).i = s.i := rfl
@[simp] theorem State.skipIf_pc (s : State) (c : Bool) : (s.skipIf c).pc = s.pc + if c then 4#16 else 2#16 := rfl
@[simp] theorem State.skipIf_stack (s : State) (c : Bool) : (s.skipIf c).stack = s.stack := rfl
@[simp] theorem State.skipIf_sp (s : State) (c : Bool) : (s.skipIf c).sp = s.sp := rfl
@[simp] theorem State.skipIf_dt (s : State) (c : Bool) : (s.skipIf c).dt = s.dt := rfl
@[simp] theorem State.skipIf_st (s : State) (c : Bool) : (s.skipIf c).st = s.st := rfl
@[simp] theorem State.skipIf_fb (s : State) (c : Bool) : (s.skipIf c).fb = s.fb := rfl
@[simp] theorem State.skipIf_key (s : State) (c : Bool) : (s.skipIf c).key = s.key := rfl
@[simp] theorem State.skipIf_flags (s : State) (c : Bool) : (s.skipIf c).flags = s.flags := rfl
@[simp] theorem State.skipIf_mem (s : State) (c : Bool) : (s.skipIf c).mem = s.mem := rfl
@[simp] theorem State.skipIf_traceEn (s : State) (c : Bool) : (s.skipIf c).traceEn = s.traceEn := rfl
@[simp] theorem State.skipIf_env (s : State) (c : Bool) : (s.skipIf c).env = s.env := rfl

/-! ### jumpTo -/

@[simp] theorem State.jumpTo_v (s : State) (a : Word) : (s.jumpTo a).v = s.v := rfl
@[simp] theorem State.jumpTo_i (s : State) (a : Word) : (s.jumpTo a).i = s.i := rfl
@[simp] theorem State.jumpTo_pc (s : State) (a : Word) : (s.jumpTo a).pc = a := rfl
@[simp] theorem State.jumpTo_stack (s : State) (a : Word) : (s.jumpTo a).stack = s.stack := rfl
@[simp] theorem State.jumpTo_sp (s : State) (a : Word) : (s.jumpTo a).sp = s.sp := rfl
@[simp] theorem State.jumpTo_dt (s : State) (a : Word) : (s.jumpTo a).dt = s.dt := rfl
@[simp] theorem State.jumpTo_st (s : State) (a : Word) : (s.jumpTo a).st = s.st := rfl
@[simp] theorem State.jumpTo_fb (s : State) (a : Word) : (s.jumpTo a).fb = s.fb := rfl
@[simp] theorem State.jumpTo_key (s : State) (a : Word) : (s.jumpTo a).key = s.key := rfl
@[simp] theorem State.jumpTo_flags (s : State) (a : Word) : (s.jumpTo a).flags = s.flags := rfl
@[simp] theorem State.jumpTo_mem (s : State) (a : Word) : (s.jumpTo a).mem = s.mem := rfl
@[simp] theorem State.jumpTo_traceEn (s : State) (a : Word) : (s.jumpTo a).traceEn = s.traceEn := rfl
@[simp] theorem State.jumpTo_env (s : State) (a : Word) : (s.jumpTo a).env = s.env := rfl

/-! ### report -/

@[simp] theorem State.report_v (s : State) (n : ReportFlag) : (s.report n).v = s.v := rfl
@[simp] theorem State.report_i (s : State) (n : ReportFlag) : (s.report n).i = s.i := rfl
@[simp] theorem State.report_pc (s : State) (n : ReportFlag) : (s.report n).pc = s.pc := rfl
@[simp] theorem State.report_stack (s : State) (n : ReportFlag) : (s.report n).stack = s.stack := rfl
@[simp] theorem State.report_sp (s : State) (n : ReportFlag) : (s.report n).sp = s.sp := rfl
@[simp] theorem State.report_dt (s : State) (n : ReportFlag) : (s.report n).dt = s.dt := rfl
@[simp] theorem State.report_st (s : State) (n : ReportFlag) : (s.report n).st = s.st := rfl
@[simp] theorem State.report_fb (s : State) (n : ReportFlag) : (s.report n).fb = s.fb := rfl
@[simp] theorem State.report_key (s : State) (n : ReportFlag) : (s.report n).key = s.key := rfl
@[simp] theorem State.report_flags (s : State) (n : ReportFlag) : (s.report n).flags = s.flags.put n true := rfl
@[simp] theorem State.report_mem (s : State) (n : ReportFlag) : (s.report n).mem = s.mem := rfl
@[simp] theorem State.report_traceEn (s : State) (n : ReportFlag) : (s.report n).traceEn = s.traceEn := rfl
@[simp] theorem State.report_env (s : State) (n : ReportFlag) : (s.report n).env = s.env := rfl

/-! ### emit -/

@[simp] theorem State.emit_v (s : State) (o : Output) : (s.emit o).v = s.v := rfl
@[simp] theorem State.emit_i (s : State) (o : Output) : (s.emit o).i = s.i := rfl
@[simp] theorem State.emit_pc (s : State) (o : Output) : (s.emit o).pc = s.pc := rfl
@[simp] theorem State.emit_stack (s : State) (o : Output) : (s.emit o).stack = s.stack := rfl
@[simp] theorem State.emit_sp (s : State) (o : Output) : (s.emit o).sp = s.sp := rfl
@[simp] theorem State.emit_dt (s : State) (o : Output) : (s.emit o).dt = s.dt := rfl
@[simp] theorem State.emit_st (s : State) (o : Output) : (s.emit o).st = s.st := rfl
@[simp] theorem State.emit_fb (s : State) (o : Output) : (s.emit o).fb = s.fb := rfl
@[simp] theorem State.emit_key (s : State) (o : Output) : (s.emit o).key = s.key := rfl
@[simp] theorem State.emit_flags (s : State) (o : Output) : (s.emit o).flags = s.flags := rfl
@[simp] theorem State.emit_mem (s : State) (o : Output) : (s.emit o).mem = s.mem := rfl
@[simp] theorem State.emit_traceEn (s : State) (o : Output) : (s.emit o).traceEn = s.traceEn := rfl
@[simp] theorem State.emit_env (s : State) (o : Output) : (s.emit o).env = { s.env with out := s.env.out ++ [o] } := rfl

/-! ### popCommand -/

@[simp] theorem State.popCommand_v (s : State) : (s.popCommand).v = s.v := rfl
@[simp] theorem State.popCommand_i (s : State) : (s.popCommand).i = s.i := rfl
@[simp] theorem State.popCommand_pc (s : State) : (s.popCommand).pc = s.pc := rfl
@[simp] theorem State.popCommand_stack (s : State) : (s.popCommand).stack = s.stack := rfl
@[simp] theorem State.popCommand_sp (s : State) : (s.popCommand).sp = s.sp := rfl
@[simp] theorem State.popCommand_dt (s : State) : (s.popCommand).dt = s.dt := rfl
@[simp] theorem State.popCommand_st (s : State) : (s.popCommand).st = s.st := rfl
@[simp] theorem State.popCommand_fb (s : State) : (s.popCommand).fb = s.fb := rfl
@[simp] theorem State.popCommand_key (s : State) : (s.popCommand).key = s.key := rfl
@[simp] theorem State.popCommand_flags (s : State) : (s.popCommand).flags = s.flags := rfl
@[simp] theorem State.popCommand_mem (s : State) : (s.popCommand).mem = s.mem := rfl
@[simp] theorem State.popCommand_traceEn (s : State) : (s.popCommand).traceEn = s.traceEn := rfl
@[simp] theorem State.popCommand_env (s : State) : (s.popCommand).env = { s.env with script := s.env.script.tail } := rfl

/-! ### endInput -/

@[simp] theorem State.endInput_v (s : State) : (s.endInput).v = s.v := rfl
@[simp] theorem State.endInput_i (s : State) : (s.endInput).i = s.i := rfl
@[simp] theorem State.endInput_pc (s : State) : (s.endInput).pc = s.pc := rfl
@[simp] theorem State.endInput_stack (s : State) : (s.endInput).stack = s.stack := rfl
@[simp] theorem State.endInput_sp (s : State) : (s.endInput).sp = s.sp := rfl
@[simp] theorem State.endInput_dt (s : State) : (s.endInput).dt = s.dt := rfl
@[simp] theorem State.endInput_st (s : State) : (s.endInput).st = s.st := rfl
@[simp] theorem State.endInput_fb (s : State) : (s.endInput).fb = s.fb := rfl
@[simp] theorem State.endInput_key (s : State) : (s.endInput).key = s.key := rfl
@[simp] theorem State.endInput_flags (s : State) : (s.endInput).flags = s.flags := rfl
@[simp] theorem State.endInput_mem (s : State) : (s.endInput).mem = s.mem := rfl
@[simp] theorem State.endInput_traceEn (s : State) : (s.endInput).traceEn = s.traceEn := rfl
@[simp] theorem State.endInput_env (s : State) : (s.endInput).env = { s.env with script := s.env.script.tail, draws := s.env.draws + 1 } := rfl

/-! ### The derived operations -/

@[simp] theorem State.reportCondition_eq (s : State) (n : ReportFlag) :
    s.reportCondition n = { s with flags := s.flags.put n true, pc := s.pc + 2#16 } := rfl

/-- Everything a tick does (60_exceptions.md R160). -/
theorem State.tick_eq (s : State) : s.tick = { s with
    dt := countDown s.dt, st := countDown s.st,
    flags := if s.st = 1#8 then s.flags.put .sndstop true else s.flags } := by
  unfold State.tick
  split <;> rfl

/-- Everything the trace step of a cycle does (40_cycle.md R86). -/
theorem State.emitTrace_eq (s : State) (w : Word) : s.emitTrace w = { s with
    env := if s.traceEn then { s.env with out := s.env.out ++ [.trace s.pc w] } else s.env } := by
  unfold State.emitTrace
  split <;> rfl

/-- A state is its own update with its own fields: what makes "nothing else changes" one equation. -/
theorem State.ext_of_fields {s t : State} (hv : t.v = s.v) (hi : t.i = s.i) (hpc : t.pc = s.pc)
    (hstack : t.stack = s.stack) (hsp : t.sp = s.sp) (hdt : t.dt = s.dt) (hst : t.st = s.st) (hfb : t.fb = s.fb)
    (hkey : t.key = s.key) (hflags : t.flags = s.flags) (hmem : t.mem = s.mem) (htr : t.traceEn = s.traceEn)
    (henv : t.env = s.env) : t = s := by
  cases s; cases t; simp_all

/-! ### Report flags -/

@[simp] theorem ReportFlags.get_put (f : ReportFlags) (n m : ReportFlag) (b : Bool) :
    (f.put n b).get m = if m = n then b else f.get m := by
  cases n <;> cases m <;> rfl

/-- Flags with the same five levels are the same. -/
theorem ReportFlags.ext_get {f g : ReportFlags} (h : ∀ n, f.get n = g.get n) : f = g := by
  cases f; cases g
  have h1 := h .redraw; have h2 := h .sndstop; have h3 := h .unrec; have h4 := h .stkovf; have h5 := h .stkunf
  simp_all [ReportFlags.get]

end Sys2Proof.Machine
end

