-- ==== Sys2Proof/Laws/Memory.lean ====
section
/-! SUPPORT. Main memory: read after write, the canonical form, and what a stored list of bytes leaves. -/

namespace Sys2Proof.Machine

/-! ### One byte -/

theorem Memory.get_erase (m : Memory) (a b : Nat) :
    (m.erase a).get b = if b = a then Memory.resetByte b else m.get b := by
  induction m with
  | nil => simp [Memory.erase, Memory.get]
  | cons c m ih =>
    obtain ⟨k, c⟩ := c
    simp only [Memory.erase, List.filter_cons] at ih ⊢
    by_cases h : k = a
    · subst h
      simp only [bne_self_eq_false, Bool.false_eq_true, if_false, ih, Memory.get]
      by_cases hb : b = k
      · simp [hb]
      · simp [hb, Ne.symm hb]
    · simp only [bne_iff_ne, ne_eq, h, not_false_eq_true, if_true, Memory.get, ih]
      by_cases hb : b = a
      · subst hb; simp [h]
      · simp [hb]

theorem Memory.get_place {m : Memory} {a : Nat} (h : m.get a = Memory.resetByte a) (b : Byte) (c : Nat) :
    (Memory.place a b m).get c = if c = a then b else m.get c := by
  unfold Memory.place
  split
  · split
    · simp_all
    · rfl
  · by_cases hc : c = a
    · simp [Memory.get, hc]
    · simp [Memory.get, hc, Ne.symm hc]

/-- Read after write, on every memory. -/
theorem Memory.get_put (m : Memory) (a : Nat) (b : Byte) (c : Nat) :
    (m.put a b).get c = if c = a then b else m.get c := by
  induction m with
  | nil => exact Memory.get_place rfl b c
  | cons d m ih =>
    obtain ⟨k, d⟩ := d
    simp only [Memory.put]
    split
    next hk =>
      simp only [Memory.get, ih]
      by_cases hc : c = a
      · subst hc; simp [Nat.ne_of_lt hk]
      · simp [hc]
    next =>
      rw [Memory.get_place (by simp [Memory.get_erase]), Memory.get_erase]
      split <;> simp_all

@[simp] theorem memRead_memWrite (s : State) (a c : Nat) (b : Byte) :
    (s.memWrite a b).memRead c = if memAddress c = memAddress a then b else s.memRead c := by
  simp [State.memRead, State.memWrite, Memory.get_put]

@[simp] theorem memRead_advance (s : State) (d : Nat) : (s.advance).memRead d = s.memRead d := rfl
@[simp] theorem memRead_skipIf (s : State) (c : Bool) (d : Nat) : (s.skipIf c).memRead d = s.memRead d := rfl
@[simp] theorem memRead_jumpTo (s : State) (a : Word) (d : Nat) : (s.jumpTo a).memRead d = s.memRead d := rfl
@[simp] theorem memRead_report (s : State) (n : ReportFlag) (d : Nat) : (s.report n).memRead d = s.memRead d := rfl
@[simp] theorem memRead_emit (s : State) (o : Output) (d : Nat) : (s.emit o).memRead d = s.memRead d := rfl
@[simp] theorem memRead_popCommand (s : State) (d : Nat) : (s.popCommand).memRead d = s.memRead d := rfl
@[simp] theorem memRead_endInput (s : State) (d : Nat) : (s.endInput).memRead d = s.memRead d := rfl
@[simp] theorem memRead_writeV (s : State) (x : RegIx) (b : Byte) (d : Nat) : (s.writeV x b).memRead d = s.memRead d := rfl

/-- Reads depend on memory alone. -/
theorem memRead_congr {s t : State} (h : t.mem = s.mem) (a : Nat) : t.memRead a = s.memRead a := by
  simp only [State.memRead, h]

theorem memAddress_lt (a : Nat) : memAddress a < 4096 := Nat.mod_lt _ (by decide)

@[simp] theorem memAddress_memAddress (a : Nat) : memAddress (memAddress a) = memAddress a := Nat.mod_mod _ _

/-! ### The canonical form -/

theorem Memory.wfFrom_mono {lo lo' : Nat} (h : lo' ≤ lo) {m : Memory} (hm : m.wfFrom lo = true) :
    m.wfFrom lo' = true := by
  cases m with
  | nil => rfl
  | cons c m =>
    obtain ⟨k, c⟩ := c
    simp only [Memory.wfFrom, Bool.and_eq_true, decide_eq_true_eq] at hm ⊢
    exact ⟨⟨⟨by omega, hm.1.1.2⟩, hm.1.2⟩, hm.2⟩

/-- Every address listed from `lo` on is `lo` or above. -/
theorem Memory.le_of_mem {lo : Nat} {m : Memory} (hm : m.wfFrom lo = true) {c : Host.Cell} (hc : c ∈ m) :
    lo ≤ c.1 := by
  induction m generalizing lo with
  | nil => cases hc
  | cons d m ih =>
    obtain ⟨k, d⟩ := d
    simp only [Memory.wfFrom, Bool.and_eq_true, decide_eq_true_eq] at hm
    rcases List.mem_cons.1 hc with rfl | hc
    · exact hm.1.1.1
    · have := ih hm.2 hc
      omega

theorem Memory.erase_eq_of_lt {a lo : Nat} (h : a < lo) {m : Memory} (hm : m.wfFrom lo = true) : m.erase a = m := by
  refine List.filter_eq_self.2 fun c hc => ?_
  have := Memory.le_of_mem hm hc
  simp only [bne_iff_ne, ne_eq]
  omega

theorem Memory.wfFrom_place {lo a : Nat} {m : Memory} (hlo : lo ≤ a) (ha : a < Config.memSize)
    (hm : m.wfFrom (a + 1) = true) (b : Byte) : (Memory.place a b m).wfFrom lo = true := by
  unfold Memory.place
  split
  · exact Memory.wfFrom_mono (by omega) hm
  next hb =>
    simp only [Memory.wfFrom, Bool.and_eq_true, decide_eq_true_eq, bne_iff_ne, ne_eq]
    exact ⟨⟨⟨hlo, ha⟩, hb⟩, hm⟩

theorem Memory.wfFrom_put {lo a : Nat} {m : Memory} (hlo : lo ≤ a) (ha : a < Config.memSize)
    (hm : m.wfFrom lo = true) (b : Byte) : (m.put a b).wfFrom lo = true := by
  induction m generalizing lo with
  | nil => exact Memory.wfFrom_place hlo ha rfl b
  | cons c m ih =>
    obtain ⟨k, c⟩ := c
    have hm' := hm
    simp only [Memory.wfFrom, Bool.and_eq_true, decide_eq_true_eq] at hm'
    obtain ⟨⟨⟨h1, h2⟩, h3⟩, h4⟩ := hm'
    simp only [Memory.put]
    split
    next hk =>
      simp only [Memory.wfFrom, Bool.and_eq_true, decide_eq_true_eq]
      exact ⟨⟨⟨h1, h2⟩, h3⟩, ih (by omega) h4⟩
    next hk =>
      refine Memory.wfFrom_place hlo ha ?_ b
      by_cases hka : k = a
      · subst hka
        have : Memory.erase k ((k, c) :: m) = m := by
          have := Memory.erase_eq_of_lt (Nat.lt_succ_self k) h4
          simpa [Memory.erase, List.filter_cons] using this
        rw [this]
        exact h4
      · have h5 : Memory.wfFrom k ((k, c) :: m) = true := by
          simp only [Memory.wfFrom, Bool.and_eq_true, decide_eq_true_eq]
          exact ⟨⟨⟨Nat.le_refl _, h2⟩, h3⟩, h4⟩
        rw [Memory.erase_eq_of_lt (show a < k by omega) h5]
        exact Memory.wfFrom_mono (by omega) h5

/-- Every memory operation keeps the canonical form: this is the one that writes. -/
theorem wf_memWrite {s : State} (h : s.mem.wf = true) (a : Nat) (b : Byte) : (s.memWrite a b).mem.wf = true :=
  Memory.wfFrom_put (Nat.zero_le _) (memAddress_lt a) h b

theorem wf_writeBytes (bs : List Byte) {s : State} (h : s.mem.wf = true) (a : Nat) :
    (s.writeBytes a bs).mem.wf = true := by
  induction bs generalizing s a with
  | nil => exact h
  | cons b bs ih => exact ih (s := s.memWrite a b) (wf_memWrite h a b) (a + 1)

theorem wf_reset : State.reset.mem.wf = true := rfl

theorem Memory.get_of_lt {lo a : Nat} (h : a < lo) {m : Memory} (hm : m.wfFrom lo = true) :
    m.get a = Memory.resetByte a := by
  induction m generalizing lo with
  | nil => rfl
  | cons c m ih =>
    obtain ⟨k, c⟩ := c
    simp only [Memory.wfFrom, Bool.and_eq_true, decide_eq_true_eq] at hm
    simp only [Memory.get]
    rw [if_neg (by omega)]
    exact ih (by omega) hm.2

theorem Memory.eq_of_wfFrom {lo : Nat} {m n : Memory} (hm : m.wfFrom lo = true) (hn : n.wfFrom lo = true)
    (h : ∀ a, m.get a = n.get a) : m = n := by
  induction m generalizing lo n with
  | nil =>
    cases n with
    | nil => rfl
    | cons d n =>
      obtain ⟨j, d⟩ := d
      have hj := h j
      simp only [Memory.wfFrom, Bool.and_eq_true, bne_iff_ne, ne_eq] at hn
      simp only [Memory.get, if_true] at hj
      exact absurd hj.symm hn.1.2
  | cons c m ih =>
    obtain ⟨k, c⟩ := c
    have hm' := hm
    simp only [Memory.wfFrom, Bool.and_eq_true, decide_eq_true_eq, bne_iff_ne, ne_eq] at hm'
    cases n with
    | nil =>
      have hk := h k
      simp only [Memory.get, if_true] at hk
      exact absurd hk hm'.1.2
    | cons d n =>
      obtain ⟨j, d⟩ := d
      have hn' := hn
      simp only [Memory.wfFrom, Bool.and_eq_true, decide_eq_true_eq, bne_iff_ne, ne_eq] at hn'
      have hkj : k = j := by
        rcases Nat.lt_trichotomy k j with hlt | heq | hlt
        · have hk := h k
          simp only [Memory.get, if_true, if_neg (show ¬ j = k by omega)] at hk
          rw [Memory.get_of_lt (show k < j + 1 by omega) hn'.2] at hk
          exact absurd hk hm'.1.2
        · exact heq
        · have hj := h j
          simp only [Memory.get, if_true, if_neg (show ¬ k = j by omega)] at hj
          rw [Memory.get_of_lt (show j < k + 1 by omega) hm'.2] at hj
          exact absurd hj.symm hn'.1.2
      subst hkj
      have hcd : c = d := by simpa [Memory.get] using h k
      subst hcd
      rw [ih hm'.2 hn'.2 fun a => ?_]
      by_cases hak : a ≤ k
      · rw [Memory.get_of_lt (show a < k + 1 by omega) hm'.2, Memory.get_of_lt (show a < k + 1 by omega) hn'.2]
      · have ha := h a
        simpa only [Memory.get, if_neg (show ¬ k = a by omega)] using ha

/-- Memories in canonical form that read alike are the same data. -/
theorem Memory.eq_of_get {m n : Memory} (hm : m.wf = true) (hn : n.wf = true) (h : ∀ a, m.get a = n.get a) : m = n :=
  Memory.eq_of_wfFrom hm hn h

theorem Memory.get_of_ge {m : Memory} {lo : Nat} (hm : m.wfFrom lo = true) {a : Nat} (h : Config.memSize ≤ a) :
    m.get a = Memory.resetByte a := by
  induction m generalizing lo with
  | nil => rfl
  | cons c m ih =>
    obtain ⟨k, c⟩ := c
    simp only [Memory.wfFrom, Bool.and_eq_true, decide_eq_true_eq] at hm
    simp only [Memory.get]
    rw [if_neg (by omega)]
    exact ih hm.2

/-! ### Lists of bytes -/

@[simp] theorem writeBytes_nil (s : State) (a : Nat) : s.writeBytes a [] = s := rfl

/-- A list of bytes is stored one MemWrite after the other, in ascending order (20_memory.md R43, R53). -/
theorem writeBytes_cons (s : State) (a : Nat) (b : Byte) (bs : List Byte) :
    s.writeBytes a (b :: bs) = (s.memWrite a b).writeBytes (a + 1) bs := rfl

/-- An address outside the stored bytes reads as before. -/
theorem memRead_writeBytes_of_ne (bs : List Byte) (s : State) (a c : Nat)
    (h : ∀ k, k < bs.length → memAddress c ≠ memAddress (a + k)) : (s.writeBytes a bs).memRead c = s.memRead c := by
  induction bs generalizing s a with
  | nil => rfl
  | cons b bs ih =>
    rw [writeBytes_cons, ih, memRead_memWrite, if_neg]
    · exact h 0 (by simp)
    · intro k hk
      have := h (k + 1) (by simpa using hk)
      rwa [show a + 1 + k = a + (k + 1) by omega]

/-- The k-th stored byte is read back at the k-th address, as long as the list is no longer than memory. -/
theorem memRead_writeBytes (bs : List Byte) (s : State) (a c k : Nat) (hk : k < bs.length) (hlen : bs.length ≤ 4096)
    (hc : memAddress c = memAddress (a + k)) : (s.writeBytes a bs).memRead c = bs[k] := by
  induction bs generalizing s a k with
  | nil => simp at hk
  | cons b bs ih =>
    simp only [List.length_cons] at hlen hk
    rw [writeBytes_cons]
    cases k with
    | zero =>
      rw [memRead_writeBytes_of_ne, memRead_memWrite, if_pos (by simpa using hc)]
      · rfl
      · intro j hj hcj
        rw [hc] at hcj
        simp only [memAddress, Config.memSize] at hcj
        omega
    | succ k =>
      rw [ih (k := k) (hk := by omega) (hlen := by omega)]
      · rfl
      · rwa [show a + 1 + k = a + (k + 1) by omega]

@[simp] theorem length_readBytes (s : State) (a n : Nat) : (s.readBytes a n).length = n := by
  simp [State.readBytes]

@[simp] theorem getElem_readBytes (s : State) (a n k : Nat) (h : k < (s.readBytes a n).length) :
    (s.readBytes a n)[k] = s.memRead (a + k) := by
  simp [State.readBytes]

/-- The registers that store-registers stores. -/
@[simp] theorem length_regsUpTo (s : State) (x : RegIx) : (s.regsUpTo x).length = x.val + 1 := by
  simp [State.regsUpTo]

@[simp] theorem getElem_regsUpTo (s : State) (x : RegIx) (k : Nat) (h : k < (s.regsUpTo x).length) :
    (s.regsUpTo x)[k] = s.readV ⟨k, by simp at h; omega⟩ := by
  simp [State.regsUpTo, State.readV]

@[simp] theorem length_bcdDigits (b : Byte) : (bcdDigits b).length = 3 := rfl

/-! ### Words -/

/-- A word is the word of its two bytes. -/
theorem wordOfBytes_bytes (w : Word) : wordOfBytes (BitVec.ofNat 8 (w.toNat / 256)) (BitVec.ofNat 8 w.toNat) = w := by
  apply BitVec.eq_of_toNat_eq
  simp only [wordOfBytes, BitVec.toNat_ofNat]
  omega

/-- The word fetched is the one whose bytes stand at PC and PC + 1, high byte first (20_memory.md R44). -/
theorem fetch16_eq (s : State) (pc : Word) :
    s.fetch16 pc = wordOfBytes (s.memRead pc.toNat) (s.memRead (pc.toNat + 1)) := rfl

/-- A placed word is the word fetched. -/
theorem fetch16_placeWord (s : State) (pc w : Word) : (s.placeWord pc w).fetch16 pc = w := by
  have h0 := memRead_writeBytes [BitVec.ofNat 8 (w.toNat / 256), BitVec.ofNat 8 w.toNat] s pc.toNat pc.toNat 0
    (by simp) (by simp) rfl
  have h1 := memRead_writeBytes [BitVec.ofNat 8 (w.toNat / 256), BitVec.ofNat 8 w.toNat] s pc.toNat (pc.toNat + 1) 1
    (by simp) (by simp) rfl
  rw [fetch16_eq, State.placeWord, h0, h1]
  exact wordOfBytes_bytes w

theorem fetch16_congr {s t : State} (h : t.mem = s.mem) (pc : Word) : t.fetch16 pc = s.fetch16 pc := by
  simp only [State.fetch16, memRead_congr h]

end Sys2Proof.Machine
end

