-- ==== Sys2Proof/Laws/Display.lean ====
section
/-! SUPPORT. The framebuffer: pixels, one sprite row, a whole sprite. Each loop of 44_display.md R131 gets one lemma that
says every pixel and the collision after it. -/

namespace Sys2Proof.Machine

@[simp] theorem pixel_setPixel (f : Frame) (x px : Fin 64) (y py : Fin 32) (b : Bool) :
    (f.setPixel x y b).pixel px py = if px = x ∧ py = y then b else f.pixel px py := by
  simp only [Frame.pixel, Frame.setPixel, Vector.getElem_set]
  by_cases hy : y.val = py.val
  · have hy' : py = y := Fin.ext hy.symm
    subst hy'
    simp only [if_true, Vector.getElem_set, and_true]
    by_cases hx : x.val = px.val
    · have hx' : px = x := Fin.ext hx.symm
      simp [hx']
    · have hx' : ¬ px = x := fun h => hx (by rw [h])
      simp [hx, hx']
  · have hy' : ¬ py = y := fun h => hy (by rw [h])
    simp [hy, hy']

@[simp] theorem pixel_blank (px : Fin 64) (py : Fin 32) : Frame.blank.pixel px py = false := by
  simp [Frame.pixel, Frame.blank]

/-- Frames with the same pixels are the same. -/
theorem frame_ext {f g : Frame} (h : ∀ px py, f.pixel px py = g.pixel px py) : f = g := by
  refine Vector.ext fun j hj => Vector.ext fun i hi => ?_
  exact h ⟨i, hi⟩ ⟨j, hj⟩

/-- A pixel is the one a column of the sprite reaches exactly when it lies that far from the origin. -/
theorem eq_wrapX_iff (x0 c : Nat) (hc : c < 64) (px : Fin 64) : px = wrapX (x0 + c) ↔ colFrom x0 px = c := by
  have := px.isLt
  rw [Fin.ext_iff]
  simp only [wrapX, colFrom]
  omega

theorem eq_wrapY_iff (y0 r : Nat) (hr : r < 32) (py : Fin 32) : py = wrapY (y0 + r) ↔ rowFrom y0 py = r := by
  have := py.isLt
  rw [Fin.ext_iff]
  simp only [wrapY, rowFrom]
  omega

/-- One source bit. -/
theorem pixel_drawBit (k : Canvas) (bit : Bool) (x px : Fin 64) (y py : Fin 32) :
    (k.drawBit bit x y).fb.pixel px py = (k.fb.pixel px py ^^ (bit && decide (px = x) && decide (py = y))) := by
  unfold Canvas.drawBit
  cases bit with
  | false => simp
  | true =>
    by_cases hx : px = x
    · by_cases hy : py = y
      · subst hx hy; simp
      · simp [hx, hy]
    · simp [hx]

theorem hit_drawBit (k : Canvas) (bit : Bool) (x : Fin 64) (y : Fin 32) :
    (k.drawBit bit x y).hit = (k.hit || (bit && k.fb.pixel x y)) := by
  unfold Canvas.drawBit
  cases bit <;> simp

/-- The columns of one sprite row, in any order without repeats: every pixel, and the collision. -/
theorem drawColumns_spec (cs : List Nat) (hnd : cs.Nodup) (hlt : ∀ c ∈ cs, c < 64) (k : Canvas) (b : Byte) (x0 y : Nat) :
    (∀ px py, (k.drawColumns b x0 y cs).fb.pixel px py =
      (k.fb.pixel px py ^^ (decide (py = wrapY y) && decide (colFrom x0 px ∈ cs) && spriteBit b (colFrom x0 px)))) ∧
    ((k.drawColumns b x0 y cs).hit = true ↔
      k.hit = true ∨ ∃ c ∈ cs, spriteBit b c = true ∧ k.fb.pixel (wrapX (x0 + c)) (wrapY y) = true) := by
  induction cs generalizing k with
  | nil => simp [Canvas.drawColumns]
  | cons c cs ih =>
    have hc : c < 64 := hlt c (by simp)
    obtain ⟨hcs, hnd'⟩ := List.nodup_cons.1 hnd
    obtain ⟨ih1, ih2⟩ := ih hnd' (fun d hd => hlt d (by simp [hd])) (k.drawBit (spriteBit b c) (wrapX (x0 + c)) (wrapY y))
    constructor
    · intro px py
      simp only [Canvas.drawColumns]
      rw [ih1, pixel_drawBit, Bool.xor_assoc]
      congr 1
      have hcol := eq_wrapX_iff x0 c hc px
      by_cases hpx : colFrom x0 px = c
      · simp [hcol, hpx, hcs]
        cases spriteBit b c <;> simp
      · simp [hcol, hpx]
    · simp only [Canvas.drawColumns]
      rw [ih2, hit_drawBit]
      have hother : ∀ d ∈ cs, (k.drawBit (spriteBit b c) (wrapX (x0 + c)) (wrapY y)).fb.pixel (wrapX (x0 + d)) (wrapY y) =
          k.fb.pixel (wrapX (x0 + d)) (wrapY y) := by
        intro d hd
        have hd64 : d < 64 := hlt d (by simp [hd])
        have hne : wrapX (x0 + d) ≠ wrapX (x0 + c) := by
          intro h
          have h1 := (eq_wrapX_iff x0 d hd64 (wrapX (x0 + d))).1 rfl
          have h2 := (eq_wrapX_iff x0 c hc (wrapX (x0 + d))).1 h
          exact hcs (by rw [← h2, h1]; exact hd)
        simp [pixel_drawBit, hne]
      simp only [Bool.or_eq_true, Bool.and_eq_true, List.exists_mem_cons_iff]
      rw [or_assoc]
      refine or_congr_right (or_congr_right (exists_congr fun d => and_congr_right fun hd => ?_))
      rw [hother d hd]

/-- One sprite row: its eight columns. -/
theorem drawRow_spec (k : Canvas) (b : Byte) (x0 y : Nat) :
    (∀ px py, (k.drawColumns b x0 y (List.range 8)).fb.pixel px py =
      (k.fb.pixel px py ^^ (decide (py = wrapY y) && decide (colFrom x0 px < 8) && spriteBit b (colFrom x0 px)))) ∧
    ((k.drawColumns b x0 y (List.range 8)).hit = true ↔
      k.hit = true ∨ ∃ c, c < 8 ∧ spriteBit b c = true ∧ k.fb.pixel (wrapX (x0 + c)) (wrapY y) = true) := by
  have h := drawColumns_spec (List.range 8) List.nodup_range (fun c hc => by have := List.mem_range.1 hc; omega) k b x0 y
  simpa only [List.mem_range] using h

/-- The bit that a list of sprite rows, drawn at (x0, y0), has for a pixel. -/
def rowsSet (x0 y0 : Nat) (bs : List Byte) (px : Fin 64) (py : Fin 32) : Bool :=
  decide (colFrom x0 px < 8) && ((bs[rowFrom y0 py]?).any fun b => spriteBit b (colFrom x0 px))

/-- A whole sprite of at most 32 rows: every pixel, and the collision. -/
theorem drawRows_spec (bs : List Byte) (x0 y0 : Nat) (hlen : bs.length ≤ 32) (k : Canvas) :
    (∀ px py, (k.drawRows x0 y0 bs).fb.pixel px py = (k.fb.pixel px py ^^ rowsSet x0 y0 bs px py)) ∧
    ((k.drawRows x0 y0 bs).hit = true ↔
      k.hit = true ∨ ∃ px py, rowsSet x0 y0 bs px py = true ∧ k.fb.pixel px py = true) := by
  induction bs generalizing k y0 with
  | nil => simp [Canvas.drawRows, rowsSet]
  | cons b bs ih =>
    simp only [List.length_cons] at hlen
    obtain ⟨r1, r2⟩ := drawRow_spec k b x0 y0
    obtain ⟨ih1, ih2⟩ := ih (y0 + 1) (by omega) (k.drawColumns b x0 y0 (List.range 8))
    have hrow : ∀ py : Fin 32, py = wrapY y0 ↔ rowFrom y0 py = 0 := fun py => by
      simpa using eq_wrapY_iff y0 0 (by omega) py
    have hnext : ∀ py : Fin 32, rowFrom y0 py ≠ 0 → rowFrom y0 py = rowFrom (y0 + 1) py + 1 := by
      intro py h
      have := py.isLt
      simp only [rowFrom] at h ⊢
      omega
    have hlast : ∀ py : Fin 32, rowFrom y0 py = 0 → rowFrom (y0 + 1) py = 31 := by
      intro py h
      have := py.isLt
      simp only [rowFrom] at h ⊢
      omega
    have hsplit : ∀ px py, rowsSet x0 y0 (b :: bs) px py =
        (if rowFrom y0 py = 0 then decide (colFrom x0 px < 8) && spriteBit b (colFrom x0 px)
          else rowsSet x0 (y0 + 1) bs px py) := by
      intro px py
      split
      next h => simp [rowsSet, h]
      next h => simp [rowsSet, hnext py h]
    have hnone : ∀ px py, rowFrom y0 py = 0 → rowsSet x0 (y0 + 1) bs px py = false := by
      intro px py h
      have : bs[31]? = none := List.getElem?_eq_none (by omega)
      simp [rowsSet, hlast py h, this]
    constructor
    · intro px py
      simp only [Canvas.drawRows]
      rw [ih1, r1, hsplit, Bool.xor_assoc]
      congr 1
      simp only [hrow]
      by_cases h : rowFrom y0 py = 0
      · simp [h, hnone px py h]
      · simp [h]
    · simp only [Canvas.drawRows]
      rw [ih2, r2]
      constructor
      · rintro ((h | ⟨c, hc, hb, hp⟩) | ⟨px, py, hs, hp⟩)
        · exact .inl h
        · refine .inr ⟨wrapX (x0 + c), wrapY y0, ?_, hp⟩
          have h1 := (hrow (wrapY y0)).1 rfl
          have h2 := (eq_wrapX_iff x0 c (by omega) (wrapX (x0 + c))).1 rfl
          rw [hsplit, if_pos h1, h2]
          simp [hc, hb]
        · have h0 : rowFrom y0 py ≠ 0 := fun h0 => by simp [hnone px py h0] at hs
          rw [r1] at hp
          refine .inr ⟨px, py, by rwa [hsplit, if_neg h0], ?_⟩
          simpa [hrow, h0] using hp
      · rintro (h | ⟨px, py, hs, hp⟩)
        · exact .inl (.inl h)
        · rw [hsplit] at hs
          split at hs
          next h0 =>
            simp only [Bool.and_eq_true, decide_eq_true_eq] at hs
            refine .inl (.inr ⟨colFrom x0 px, hs.1, hs.2, ?_⟩)
            rw [← (eq_wrapX_iff x0 _ (by omega) px).2 rfl, ← (hrow py).2 h0]
            exact hp
          next h0 =>
            refine .inr ⟨px, py, hs, ?_⟩
            rw [r1]
            simpa [hrow, h0] using hp

/-- The rows in memory give the bits that `State.spriteSets` names. -/
theorem rowsSet_bytesAtI (s : State) (x y : RegIx) (n : Fin 16) (px : Fin 64) (py : Fin 32) :
    rowsSet (originX (s.readV x)) (originY (s.readV y)) (s.bytesAtI n.val) px py = s.spriteSets x y n px py := by
  have hrow : ∀ r, (s.bytesAtI n.val)[r]? = if r < n.val then some (s.memRead (s.effective r)) else none := by
    intro r
    simp only [State.bytesAtI, State.effective, Nat.add_zero]
    split
    next h => rw [List.getElem?_eq_getElem (by simpa using h)]; simp
    next h => exact List.getElem?_eq_none (by simp; omega)
  simp only [rowsSet, State.spriteSets, hrow]
  split <;> simp_all

/-- Everything a draw does to the framebuffer (44_display.md R131). -/
theorem pixel_drawn (s : State) (x y : RegIx) (n : Fin 16) (px : Fin 64) (py : Fin 32) :
    (s.drawn x y n).fb.pixel px py = (s.fb.pixel px py ^^ s.spriteSets x y n px py) := by
  have h := (drawRows_spec (s.bytesAtI n.val) (originX (s.readV x)) (originY (s.readV y))
    (by simp [State.bytesAtI]; omega) ⟨s.fb, false⟩).1 px py
  rwa [rowsSet_bytesAtI] at h

/-- When a draw collides (R131): some pixel that was set has a set source bit. -/
theorem hit_drawn (s : State) (x y : RegIx) (n : Fin 16) :
    (s.drawn x y n).hit = true ↔ ∃ px py, s.spriteSets x y n px py = true ∧ s.fb.pixel px py = true := by
  have h := (drawRows_spec (s.bytesAtI n.val) (originX (s.readV x)) (originY (s.readV y))
    (by simp [State.bytesAtI]; omega) ⟨s.fb, false⟩).2
  simpa [rowsSet_bytesAtI, State.drawn] using h

end Sys2Proof.Machine
end

