-- ==== Sys2Proof/Laws/PerInstr.lean ====
section
/-! SUPPORT. The family MatchesRow, one lemma per constructor: the word that `encode` gives satisfies the mask and match of
the instruction's own row of the opcode map (30_encoding.md R62, R64, R65). -/

namespace Sys2Proof

/-! ### One lemma per format: the operand fields lie outside the fixed bits -/

theorem or_and_mask (p z k : Word) : (p ||| z) &&& k = (p &&& k) ||| (z &&& k) := by
  ext j hj
  simp [Bool.and_or_distrib_right]

theorem fixed_of_or {p z k : Word} (hp : p &&& k = p) (hz : z &&& k = 0#16) : (p ||| z) &&& k = p := by
  rw [or_and_mask, hp, hz]
  simp

theorem fieldNNN_outside : ∀ nnn : Addr12, nnn.setWidth 16 &&& 0xF000#16 = 0#16 := by decide

theorem putX_outside : ∀ x : Fin 16, putNibble 8 x &&& 0xF0FF#16 = 0#16 := by decide

theorem putX_outside_op : ∀ x : Fin 16, putNibble 8 x &&& 0xF000#16 = 0#16 := by decide

theorem putX_outside_low : ∀ x : Fin 16, putNibble 8 x &&& 0xF00F#16 = 0#16 := by decide

theorem putY_outside_op : ∀ y : Fin 16, putNibble 4 y &&& 0xF000#16 = 0#16 := by decide

theorem putY_outside_low : ∀ y : Fin 16, putNibble 4 y &&& 0xF00F#16 = 0#16 := by decide

theorem putN_outside_op : ∀ n : Fin 16, putNibble 0 n &&& 0xF000#16 = 0#16 := by decide

theorem fieldNN_outside : ∀ nn : Byte, nn.setWidth 16 &&& 0xF000#16 = 0#16 := by decide

theorem encodeNNN_matches (f : Form) (hm : rowMask f = 0xF000#16) (hp : rowMatch f &&& 0xF000#16 = rowMatch f)
    (nnn : Addr12) : matchesRow (encodeNNN f nnn) f = true := by
  simp only [matchesRow, encodeNNN, hm, fixed_of_or hp (fieldNNN_outside nnn), beq_self_eq_true]

theorem encodeXNN_matches (f : Form) (hm : rowMask f = 0xF000#16) (hp : rowMatch f &&& 0xF000#16 = rowMatch f)
    (x : RegIx) (nn : Byte) : matchesRow (encodeXNN f x nn) f = true := by
  have hz : (putNibble 8 x ||| nn.setWidth 16) &&& 0xF000#16 = 0#16 := by
    rw [or_and_mask, putX_outside_op, fieldNN_outside]
    rfl
  simp only [matchesRow, encodeXNN, hm, BitVec.or_assoc, fixed_of_or hp hz, beq_self_eq_true]

theorem encodeXY_matches (f : Form) (hm : rowMask f = 0xF00F#16) (hp : rowMatch f &&& 0xF00F#16 = rowMatch f)
    (x y : RegIx) : matchesRow (encodeXY f x y) f = true := by
  have hz : (putNibble 8 x ||| putNibble 4 y) &&& 0xF00F#16 = 0#16 := by
    rw [or_and_mask, putX_outside_low, putY_outside_low]
    rfl
  simp only [matchesRow, encodeXY, hm, BitVec.or_assoc, fixed_of_or hp hz, beq_self_eq_true]

theorem encodeXYN_matches (f : Form) (hm : rowMask f = 0xF000#16) (hp : rowMatch f &&& 0xF000#16 = rowMatch f)
    (x y : RegIx) (n : Fin 16) : matchesRow (encodeXYN f x y n) f = true := by
  have hz : (putNibble 8 x ||| (putNibble 4 y ||| putNibble 0 n)) &&& 0xF000#16 = 0#16 := by
    rw [or_and_mask, or_and_mask, putX_outside_op, putY_outside_op, putN_outside_op]
    rfl
  simp only [matchesRow, encodeXYN, hm, BitVec.or_assoc, fixed_of_or hp hz, beq_self_eq_true]

theorem encodeX_matches (f : Form) (hm : rowMask f = 0xF0FF#16) (hp : rowMatch f &&& 0xF0FF#16 = rowMatch f)
    (x : RegIx) : matchesRow (encodeX f x) f = true := by
  simp only [matchesRow, encodeX, hm, fixed_of_or hp (putX_outside x), beq_self_eq_true]

namespace Laws.MatchesRow

/-- The word of an instruction of form `f` satisfies `(w and mask) = match` of row `f`. -/
def Statement (i : Instr) : Prop := ∀ f, i.form = some f → matchesRow (encode i) f = true

theorem clearDisplay : Statement .clearDisplay := by rintro f ⟨⟩; decide
theorem ret : Statement .ret := by rintro f ⟨⟩; decide
theorem jump (nnn : Addr12) : Statement (.jump nnn) := by rintro f ⟨⟩; exact encodeNNN_matches _ rfl rfl nnn
theorem call (nnn : Addr12) : Statement (.call nnn) := by rintro f ⟨⟩; exact encodeNNN_matches _ rfl rfl nnn
theorem skipEqImm (x : RegIx) (nn : Byte) : Statement (.skipEqImm x nn) := by
  rintro f ⟨⟩; exact encodeXNN_matches _ rfl rfl x nn
theorem skipNeImm (x : RegIx) (nn : Byte) : Statement (.skipNeImm x nn) := by
  rintro f ⟨⟩; exact encodeXNN_matches _ rfl rfl x nn
theorem skipEqReg (x y : RegIx) : Statement (.skipEqReg x y) := by rintro f ⟨⟩; exact encodeXY_matches _ rfl rfl x y
theorem skipNeReg (x y : RegIx) : Statement (.skipNeReg x y) := by rintro f ⟨⟩; exact encodeXY_matches _ rfl rfl x y
theorem setImm (x : RegIx) (nn : Byte) : Statement (.setImm x nn) := by
  rintro f ⟨⟩; exact encodeXNN_matches _ rfl rfl x nn
theorem addImm (x : RegIx) (nn : Byte) : Statement (.addImm x nn) := by
  rintro f ⟨⟩; exact encodeXNN_matches _ rfl rfl x nn
theorem setReg (x y : RegIx) : Statement (.setReg x y) := by rintro f ⟨⟩; exact encodeXY_matches _ rfl rfl x y
theorem orReg (x y : RegIx) : Statement (.orReg x y) := by rintro f ⟨⟩; exact encodeXY_matches _ rfl rfl x y
theorem andReg (x y : RegIx) : Statement (.andReg x y) := by rintro f ⟨⟩; exact encodeXY_matches _ rfl rfl x y
theorem xorReg (x y : RegIx) : Statement (.xorReg x y) := by rintro f ⟨⟩; exact encodeXY_matches _ rfl rfl x y
theorem addReg (x y : RegIx) : Statement (.addReg x y) := by rintro f ⟨⟩; exact encodeXY_matches _ rfl rfl x y
theorem subReg (x y : RegIx) : Statement (.subReg x y) := by rintro f ⟨⟩; exact encodeXY_matches _ rfl rfl x y
theorem shiftRight (x y : RegIx) : Statement (.shiftRight x y) := by rintro f ⟨⟩; exact encodeXY_matches _ rfl rfl x y
theorem subRegReverse (x y : RegIx) : Statement (.subRegReverse x y) := by
  rintro f ⟨⟩; exact encodeXY_matches _ rfl rfl x y
theorem shiftLeft (x y : RegIx) : Statement (.shiftLeft x y) := by rintro f ⟨⟩; exact encodeXY_matches _ rfl rfl x y
theorem setIndex (nnn : Addr12) : Statement (.setIndex nnn) := by rintro f ⟨⟩; exact encodeNNN_matches _ rfl rfl nnn
theorem jumpOffset (nnn : Addr12) : Statement (.jumpOffset nnn) := by
  rintro f ⟨⟩; exact encodeNNN_matches _ rfl rfl nnn
theorem random (x : RegIx) (nn : Byte) : Statement (.random x nn) := by
  rintro f ⟨⟩; exact encodeXNN_matches _ rfl rfl x nn
theorem draw (x y : RegIx) (n : Fin 16) : Statement (.draw x y n) := by
  rintro f ⟨⟩; exact encodeXYN_matches _ rfl rfl x y n
theorem skipKeyPressed (x : RegIx) : Statement (.skipKeyPressed x) := by rintro f ⟨⟩; exact encodeX_matches _ rfl rfl x
theorem skipKeyNotPressed (x : RegIx) : Statement (.skipKeyNotPressed x) := by
  rintro f ⟨⟩; exact encodeX_matches _ rfl rfl x
theorem getDelayTimer (x : RegIx) : Statement (.getDelayTimer x) := by rintro f ⟨⟩; exact encodeX_matches _ rfl rfl x
theorem waitKey (x : RegIx) : Statement (.waitKey x) := by rintro f ⟨⟩; exact encodeX_matches _ rfl rfl x
theorem setDelayTimer (x : RegIx) : Statement (.setDelayTimer x) := by rintro f ⟨⟩; exact encodeX_matches _ rfl rfl x
theorem setSoundTimer (x : RegIx) : Statement (.setSoundTimer x) := by rintro f ⟨⟩; exact encodeX_matches _ rfl rfl x
theorem addToIndex (x : RegIx) : Statement (.addToIndex x) := by rintro f ⟨⟩; exact encodeX_matches _ rfl rfl x
theorem charSpriteAddress (x : RegIx) : Statement (.charSpriteAddress x) := by
  rintro f ⟨⟩; exact encodeX_matches _ rfl rfl x
theorem storeBcd (x : RegIx) : Statement (.storeBcd x) := by rintro f ⟨⟩; exact encodeX_matches _ rfl rfl x
theorem storeRegisters (x : RegIx) : Statement (.storeRegisters x) := by rintro f ⟨⟩; exact encodeX_matches _ rfl rfl x
theorem loadRegisters (x : RegIx) : Statement (.loadRegisters x) := by rintro f ⟨⟩; exact encodeX_matches _ rfl rfl x
theorem unrecognized (w : Word) : Statement (.unrecognized w) := by rintro f ⟨⟩

end Laws.MatchesRow

end Sys2Proof
end

