-- ==== Sys2Proof/Laws/Encoding.lean ====
section
/-! SUPPORT. Masks and fields as numbers: what the four masks of 30_encoding.md R62 leave of a word, and that putting a
field back gives the word's own bits. -/

namespace Sys2Proof

theorem mem_opcodeMap (f : Form) : f ∈ opcodeMap := by cases f <;> decide

theorem form_operandsOf (w : Word) (f : Form) : (operandsOf w f).form = some f := by cases f <;> rfl

/-! ### The masks of R62 -/

theorem opMask_bit : ∀ j : Fin 16, (0xF000#16).getLsbD j.val = decide (12 ≤ j.val) := by decide

/-- Bits 15:12 of a word, in place. -/
theorem and_op (w : Word) : w &&& 0xF000#16 = (w >>> 12) <<< 12 := by
  apply BitVec.eq_of_getLsbD_eq
  intro j hj
  rw [BitVec.getLsbD_and, opMask_bit ⟨j, hj⟩, BitVec.getLsbD_shiftLeft, BitVec.getLsbD_ushiftRight]
  by_cases h : j < 12
  · simp [h]
  · simp [h, hj, show 12 + (j - 12) = j by omega, show 12 ≤ j by omega]

theorem toNat_and_op (w : Word) : (w &&& 0xF000#16).toNat = w.toNat / 4096 * 4096 := by
  rw [and_op]
  simp only [BitVec.toNat_shiftLeft, BitVec.toNat_ushiftRight, Nat.shiftRight_eq_div_pow, Nat.shiftLeft_eq]
  have := w.isLt
  omega

/-- A mask that keeps the primary nibble and the low bits below 2^k keeps them side by side. -/
theorem toNat_and_op_low (w : Word) (k : Nat) (hk : k ≤ 12) (m : Word) (hm : m = 0xF000#16 ||| BitVec.ofNat 16 (2 ^ k - 1)) :
    (w &&& m).toNat = w.toNat / 4096 * 4096 + w.toNat % 2 ^ k := by
  have hlow : (w &&& BitVec.ofNat 16 (2 ^ k - 1)).toNat = w.toNat % 2 ^ k := by
    have h2 : 2 ^ k ≤ 2 ^ 12 := Nat.pow_le_pow_right (by decide) hk
    rw [BitVec.toNat_and, BitVec.toNat_ofNat, Nat.mod_eq_of_lt (by omega), Nat.and_two_pow_sub_one_eq_mod]
  have hlt : w.toNat % 2 ^ k < 2 ^ 12 :=
    Nat.lt_of_lt_of_le (Nat.mod_lt _ (Nat.two_pow_pos k)) (Nat.pow_le_pow_right (by decide) hk)
  have hsplit : w &&& m = (w &&& 0xF000#16) ||| (w &&& BitVec.ofNat 16 (2 ^ k - 1)) := by
    rw [hm]; ext j hj; simp [Bool.and_or_distrib_left]
  rw [hsplit, BitVec.toNat_or, toNat_and_op, hlow, show w.toNat / 4096 * 4096 = (w.toNat / 4096) <<< 12 by
    rw [Nat.shiftLeft_eq], ← Nat.shiftLeft_add_eq_or_of_lt hlt]

theorem toNat_and_op_nibble (w : Word) : (w &&& 0xF00F#16).toNat = w.toNat / 4096 * 4096 + w.toNat % 16 :=
  toNat_and_op_low w 4 (by decide) _ rfl

theorem toNat_and_op_byte (w : Word) : (w &&& 0xF0FF#16).toNat = w.toNat / 4096 * 4096 + w.toNat % 256 :=
  toNat_and_op_low w 8 (by decide) _ rfl

theorem toNat_and_all (w : Word) : (w &&& 0xFFFF#16).toNat = w.toNat := by
  rw [show (0xFFFF#16 : Word) = BitVec.allOnes 16 from rfl, BitVec.and_allOnes]

/-- The part of a word that a row's mask keeps, as a number. -/
def keptBits (w : Word) (f : Form) : Nat :=
  match (rowMask f).toNat with
  | 0xF000 => w.toNat / 4096 * 4096
  | 0xF00F => w.toNat / 4096 * 4096 + w.toNat % 16
  | 0xF0FF => w.toNat / 4096 * 4096 + w.toNat % 256
  | _ => w.toNat

/-- Matching a row, as an equation between numbers. -/
theorem matchesRow_iff (w : Word) (f : Form) : matchesRow w f = true ↔ keptBits w f = (rowMatch f).toNat := by
  rw [matchesRow, beq_iff_eq, ← BitVec.toNat_inj]
  have h : (w &&& rowMask f).toNat = keptBits w f := by
    cases f <;> first
      | exact toNat_and_op w
      | exact toNat_and_op_nibble w
      | exact toNat_and_op_byte w
      | exact toNat_and_all w
  rw [h]

/-! ### Fields put back in place -/

theorem putNibble_nibbleAt (w : Word) (lo : Nat) (hlo : lo ≤ 12) :
    putNibble lo (nibbleAt lo w) = w &&& (0xF#16 <<< lo) := by
  apply BitVec.eq_of_toNat_eq
  have hp : 2 ^ lo ≤ 2 ^ 12 := Nat.pow_le_pow_right (by decide) hlo
  have h1 : w.toNat / 2 ^ lo % 16 * 2 ^ lo < 65536 := by
    calc w.toNat / 2 ^ lo % 16 * 2 ^ lo ≤ 15 * 2 ^ 12 := Nat.mul_le_mul (by omega) hp
      _ < 65536 := by decide
  have h2 : 15 * 2 ^ lo < 65536 := by omega
  rw [putNibble, nibbleAt, BitVec.toNat_ofNat, Nat.mod_eq_of_lt h1, BitVec.toNat_and, BitVec.toNat_shiftLeft,
    Nat.shiftLeft_eq]
  rw [show ((0xF#16 : Word).toNat * 2 ^ lo) = 15 * 2 ^ lo from rfl, Nat.mod_eq_of_lt h2]
  rw [← Nat.shiftLeft_eq 15, ← Nat.shiftLeft_eq (w.toNat / 2 ^ lo % 16), ← Nat.shiftRight_eq_div_pow]
  apply Nat.eq_of_testBit_eq
  intro j
  simp only [Nat.testBit_shiftLeft, Nat.testBit_and, show (15 : Nat) = 2 ^ 4 - 1 from rfl,
    Nat.testBit_two_pow_sub_one, show (16 : Nat) = 2 ^ 4 from rfl, Nat.testBit_mod_two_pow, Nat.testBit_shiftRight]
  by_cases h : lo ≤ j
  · simp [h, show lo + (j - lo) = j by omega, Bool.and_comm]
  · simp [h]

theorem putX_fieldX (w : Word) : putNibble 8 (fieldX w) = w &&& 0x0F00#16 := putNibble_nibbleAt w 8 (by decide)

theorem putY_fieldY (w : Word) : putNibble 4 (fieldY w) = w &&& 0x00F0#16 := putNibble_nibbleAt w 4 (by decide)

theorem putN_fieldN (w : Word) : putNibble 0 (fieldN w) = w &&& 0x000F#16 := putNibble_nibbleAt w 0 (by decide)

theorem setWidth_fieldNN (w : Word) : (fieldNN w).setWidth 16 = w &&& 0x00FF#16 := by
  apply BitVec.eq_of_toNat_eq
  rw [BitVec.toNat_and, show (0x00FF#16 : Word).toNat = 2 ^ 8 - 1 from rfl, Nat.and_two_pow_sub_one_eq_mod]
  simp only [fieldNN, BitVec.toNat_setWidth, BitVec.toNat_ofNat]
  omega

theorem setWidth_fieldNNN (w : Word) : (fieldNNN w).setWidth 16 = w &&& 0x0FFF#16 := by
  apply BitVec.eq_of_toNat_eq
  rw [BitVec.toNat_and, show (0x0FFF#16 : Word).toNat = 2 ^ 12 - 1 from rfl, Nat.and_two_pow_sub_one_eq_mod]
  simp only [fieldNNN, BitVec.toNat_setWidth, BitVec.toNat_ofNat]
  omega

end Sys2Proof
end

