-- ==== Sys2Proof/Laws/Registers.lean ====
section
/-! SUPPORT. General registers, flags as register values, the return stack, and the keypad scan: what each shared
operation does, said once. -/

namespace Sys2Proof.Machine

/-! ### General registers -/

@[simp] theorem readV_writeV (s : State) (x r : RegIx) (b : Byte) :
    (s.writeV x b).readV r = if r = x then b else s.readV r := by
  simp only [State.readV, State.writeV, Vector.getElem_set, Fin.ext_iff, eq_comm]

@[simp] theorem readV_advance (s : State) (r : RegIx) : (s.advance).readV r = s.readV r := rfl
@[simp] theorem readV_skipIf (s : State) (c : Bool) (r : RegIx) : (s.skipIf c).readV r = s.readV r := rfl
@[simp] theorem readV_jumpTo (s : State) (a : Word) (r : RegIx) : (s.jumpTo a).readV r = s.readV r := rfl
@[simp] theorem readV_report (s : State) (n : ReportFlag) (r : RegIx) : (s.report n).readV r = s.readV r := rfl
@[simp] theorem readV_emit (s : State) (o : Output) (r : RegIx) : (s.emit o).readV r = s.readV r := rfl
@[simp] theorem readV_popCommand (s : State) (r : RegIx) : (s.popCommand).readV r = s.readV r := rfl
@[simp] theorem readV_endInput (s : State) (r : RegIx) : (s.endInput).readV r = s.readV r := rfl
@[simp] theorem readV_memWrite (s : State) (a : Nat) (b : Byte) (r : RegIx) : (s.memWrite a b).readV r = s.readV r := rfl
@[simp] theorem readV_writeBytes (s : State) (a : Nat) (bs : List Byte) (r : RegIx) : (s.writeBytes a bs).readV r = s.readV r := rfl

/-- The register file of an update of other fields reads as before. -/
theorem readV_congr {s t : State} (h : t.v = s.v) (r : RegIx) : t.readV r = s.readV r := by
  simp only [State.readV, h]

/-- Result first, flag second: VF ends as the flag, whatever X is (00_scope.md R5). -/
theorem readV_resultThenFlag (s : State) (x r : RegIx) (result flag : Byte) :
    (s.resultThenFlag x result flag).readV r = if r = regVF then flag else if r = x then result else s.readV r := by
  simp [State.resultThenFlag]

/-- Flag first, result second: with X = 0xF the result remains (R5). -/
theorem readV_flagThenResult (s : State) (x r : RegIx) (flag result : Byte) :
    (s.flagThenResult x flag result).readV r = if r = x then result else if r = regVF then flag else s.readV r := by
  simp [State.flagThenResult]

theorem resultThenFlag_eq (s : State) (x : RegIx) (result flag : Byte) :
    s.resultThenFlag x result flag = { s with v := (s.resultThenFlag x result flag).v } := rfl

theorem flagThenResult_eq (s : State) (x : RegIx) (flag result : Byte) :
    s.flagThenResult x flag result = { s with v := (s.flagThenResult x flag result).v } := rfl

/-- Writing a list of bytes into the registers from `k` on. -/
theorem getElem_writeRegs (bs : List Byte) (k : Nat) (v : Vector Byte 16) (r : Nat) (hr : r < 16) :
    (writeRegs k bs v)[r] = if h : k ≤ r ∧ r < k + bs.length then bs[r - k]'(by omega) else v[r] := by
  induction bs generalizing k v with
  | nil => simp [writeRegs]
  | cons b bs ih =>
    simp only [writeRegs, ih, List.length_cons]
    by_cases h1 : k + 1 ≤ r ∧ r < k + 1 + bs.length
    · rw [dif_pos h1, dif_pos (by omega)]
      obtain ⟨j, rfl⟩ : ∃ j, r = k + 1 + j := ⟨r - (k + 1), by omega⟩
      simp [show k + 1 + j - k = j + 1 by omega]
    · rw [dif_neg h1]
      by_cases h2 : r = k
      · subst h2
        simp
      · rw [dif_neg (by omega), Vector.getElem_setIfInBounds, if_neg (by omega)]

/-! ### Flags as register values -/

theorem flagByte_zero_or_one (c : Bool) : flagByte c = 0#8 ∨ flagByte c = 1#8 := by
  cases c <;> simp [flagByte]

theorem lowBit_zero_or_one (a : Byte) : lowBit a = 0#8 ∨ lowBit a = 1#8 := by
  unfold lowBit
  rcases Nat.mod_two_eq_zero_or_one a.toNat with h | h <;> simp [h]

theorem highBit_zero_or_one (a : Byte) : highBit a = 0#8 ∨ highBit a = 1#8 := by
  unfold highBit
  have h : a.toNat / 128 = 0 ∨ a.toNat / 128 = 1 := by omega
  rcases h with h | h <;> simp [h]

/-! ### The return stack -/

/-- Everything `push` does when the stack is not full (41_control_flow.md R92). -/
theorem push_of_lt {s : State} (h : s.sp.val < 16) (a : Word) :
    s.push a = some { s with stack := s.stack.set s.sp.val a, sp := ⟨s.sp.val + 1, by omega⟩ } := by
  simp [State.push, h]

/-- A full stack takes nothing (60_exceptions.md R153). -/
theorem push_of_full {s : State} (h : ¬ s.sp.val < 16) (a : Word) : s.push a = none := by
  simp [State.push, h]

/-- Everything `pop` does when the stack is not empty (R90). -/
theorem pop_of_pos {s : State} (h : 0 < s.sp.val) :
    s.pop = some (s.stack[s.sp.val - 1]'(by omega), { s with sp := ⟨s.sp.val - 1, by omega⟩ }) := by
  simp [State.pop, h]

/-- An empty stack gives nothing (60_exceptions.md R154). -/
theorem pop_of_empty {s : State} (h : ¬ 0 < s.sp.val) : s.pop = none := by
  simp [State.pop, h]

/-! ### The keypad scan -/

/-- The scan finds the least set position. -/
theorem leastKeyFrom_eq_some (bs : List Bool) (k j : Nat) :
    leastKeyFrom k bs = some j ↔
      ∃ d, j = k + d ∧ bs[d]? = some true ∧ ∀ e, e < d → bs[e]? = some false := by
  induction bs generalizing k with
  | nil => simp [leastKeyFrom]
  | cons b bs ih =>
    cases b with
    | true =>
      simp only [leastKeyFrom, if_true]
      constructor
      · intro h
        exact ⟨0, by simpa using h.symm, by simp, by simp⟩
      · rintro ⟨d, rfl, -, h⟩
        cases d with
        | zero => simp
        | succ d => simpa using h 0 (by omega)
    | false =>
      simp only [leastKeyFrom, Bool.false_eq_true, if_false, ih]
      constructor
      · rintro ⟨d, rfl, h1, h2⟩
        refine ⟨d + 1, by omega, by simpa using h1, ?_⟩
        intro e he
        cases e with
        | zero => simp
        | succ e => simpa using h2 e (by omega)
      · rintro ⟨d, rfl, h1, h2⟩
        cases d with
        | zero => simp at h1
        | succ d =>
          refine ⟨d, by omega, by simpa using h1, ?_⟩
          intro e he
          simpa using h2 (e + 1) (by omega)

/-- The scan finds nothing when every position is clear. -/
theorem leastKeyFrom_eq_none (bs : List Bool) (k : Nat) : leastKeyFrom k bs = none ↔ ∀ b ∈ bs, b = false := by
  induction bs generalizing k with
  | nil => simp [leastKeyFrom]
  | cons b bs ih => cases b <;> simp [leastKeyFrom, ih]

/-- The least pressed key, in terms of the latch's levels (45_timers_input.md R145). -/
theorem leastKey_eq_some (s : State) (k : Fin 16) :
    s.leastKey = some k.val ↔ s.keyDown k = true ∧ ∀ j, j < k → s.keyDown j = false := by
  simp only [State.leastKey, leastKeyFrom_eq_some, State.keyDown, Nat.zero_add]
  constructor
  · rintro ⟨d, rfl, h1, h2⟩
    refine ⟨by simpa [List.getElem?_eq_getElem] using h1, fun j hj => ?_⟩
    have := h2 j.val hj
    simpa [List.getElem?_eq_getElem, j.isLt] using this
  · rintro ⟨h1, h2⟩
    refine ⟨k.val, rfl, by simpa [List.getElem?_eq_getElem] using h1, fun e he => ?_⟩
    have := h2 ⟨e, by omega⟩ he
    have he' : e < 16 := by omega
    simpa [List.getElem?_eq_getElem, he'] using this

/-- No key is found when no key is pressed. -/
theorem leastKey_eq_none (s : State) : s.leastKey = none ↔ ∀ k, s.keyDown k = false := by
  simp only [State.leastKey, leastKeyFrom_eq_none, State.keyDown]
  constructor
  · intro h k
    exact h _ (by simp)
  · intro h b hb
    obtain ⟨k, hk, rfl⟩ := List.getElem_of_mem hb
    have hk' : k < 16 := by simpa using hk
    simpa using h ⟨k, hk'⟩

/-- A key the scan reports is one of the sixteen. -/
theorem leastKey_lt {s : State} {k : Nat} (h : s.leastKey = some k) : k < 16 := by
  obtain ⟨d, rfl, h1, -⟩ := (leastKeyFrom_eq_some _ _ _).1 h
  have := (List.getElem?_eq_some_iff.1 h1).1
  simpa using this

end Sys2Proof.Machine
end

