-- ==== Sys2Proof/Laws/Step.lean ====
section
/-! SUPPORT. The step, said once: what a cycle is over `exec`, what a host operation is, and how a word is placed. -/

namespace Sys2Proof.Machine

/-- With no host operation waiting, a step is a cycle. -/
theorem step_of_cycleDue {s : State} (h : s.cycleDue = true) : step s = s.cycle := by
  unfold step State.move
  unfold State.cycleDue at h
  split
  · rfl
  next c _ heq => simp_all

/-- With a host operation waiting, a step performs it. -/
theorem step_of_hostOp {s : State} {c : Command} {rest : List Command} (h : s.env.script = c :: rest)
    (hc : c.isCycle = false) : step s = .next (s.popCommand.perform c) := by
  unfold step State.move
  simp [h, hc]

/-- A cycle whose execute step answers a next state (40_cycle.md R80). -/
theorem cycle_of_exec {s t : State}
    (h : exec (decode (s.fetch16 s.pc)) (s.emitTrace (s.fetch16 s.pc)) = .next t) :
    s.cycle = .next (t.endCycle s.awaitingKey) := by
  simp only [State.cycle, h]

/-- A held cycle does not tick (R85). -/
theorem endCycle_held (t : State) : t.endCycle true = t.endInput := rfl

/-- A completed cycle ticks (R80 step 5). -/
theorem endCycle_done (t : State) : t.endCycle false = t.tick.endInput := rfl

/-- The `hold` outcome in terms of the latch (45_timers_input.md R145). -/
theorem holds_iff (i : Instr) (s : State) : holds i s = true ↔ (∃ x, i = .waitKey x) ∧ ∀ k, s.keyDown k = false := by
  simp only [holds, Bool.and_eq_true, Option.isNone_iff_eq_none, leastKey_eq_none]
  cases i <;> simp [waitsForKey]

/-- After dropping what stands before it, the host's next command is a cycle, or there is none. -/
theorem fromNextCycle_due (cs : List Command) : fromNextCycle cs = [] ∨
    ∃ c rest, fromNextCycle cs = c :: rest ∧ c.isCycle = true := by
  induction cs with
  | nil => exact .inl rfl
  | cons c cs ih =>
    simp only [fromNextCycle]
    split
    next h => exact .inr ⟨c, cs, rfl, h⟩
    next => exact ih

/-- The word placed for the next step is the one it fetches, and that step is a cycle. -/
theorem withNextWord_spec (s : State) (w : Word) :
    (s.withNextWord w).cycleDue = true ∧ (s.withNextWord w).pc = s.pc ∧
      (s.withNextWord w).fetch16 (s.withNextWord w).pc = w := by
  have hpc : (s.placeWord s.pc w).pc = s.pc := rfl
  refine ⟨?_, hpc, ?_⟩
  · simp only [State.cycleDue, State.withNextWord]
    rcases fromNextCycle_due (s.placeWord s.pc w).env.script with h | ⟨c, rest, h, hc⟩ <;> simp [*]
  · have : (s.withNextWord w).fetch16 (s.withNextWord w).pc = (s.placeWord s.pc w).fetch16 s.pc := by
      rw [show (s.withNextWord w).pc = s.pc from hpc]
      exact fetch16_congr rfl _
    rw [this, fetch16_placeWord]

end Sys2Proof.Machine
end

