-- ==== Sys2Proof/Tests/Slice0.lean ====
section
/-! SUPPORT. The model's own tests and the witnesses of the statements. Words of the decode tests are written out from
30_encoding.md R62 and R65; expected results of the instruction tests are the vectors of 95_test_vectors.md section 2 (the
row is named by its rule), never the model's own answers. -/

namespace Sys2Proof.Tests

open Sys2Proof Sys2Proof.Machine

/-! ### Small helpers -/

/-- The outcome is a next state for which `p` holds. -/
def nextIs (o : Host.Outcome State Fault Refusal) (p : State → Bool) : Bool :=
  match o with
  | .next t => p t
  | .fault _ | .refused _ => false

/-- One step of the word `w` at PC from the state `s`. -/
def stepOn (s : State) (w : Nat) (p : State → Bool) : Bool := nextIs (step (s.withFetchWord 16 w)) p

/-- Reset with some registers set. -/
def regs (l : List (RegIx × Byte)) : State := l.foldl (fun s c => s.writeV c.1 c.2) State.reset

/-- Reset with I, PC and some memory bytes set, all registers zero. -/
def memAt (i pc : Word) (l : List (Nat × Byte)) : State :=
  l.foldl (fun s c => s.memWrite c.1 c.2) { State.reset with i := i, pc := pc }

/-- Reset with some keys pressed. -/
def keys (l : List Nat) : State := { State.reset with key := l.foldl (fun v k => v.setIfInBounds k true) State.reset.key }

/-- Reset with SP and one stack entry set. -/
def stackAt (sp : Fin 17) (j : Fin 16) (a : Word) : State :=
  { State.reset with sp := sp, stack := State.reset.stack.set j.val a }

/-- The pixels of a list are set, and only they, among columns 0 to 7 of rows 0 to 4 and the listed ones. -/
def picture (t : State) (l : List (Nat × Nat)) : Bool :=
  (l.all fun c => t.fb.pixel (wrapX c.1) (wrapY c.2)) &&
  (List.range 5).all fun y => (List.range 8).all fun x => t.fb.pixel (wrapX x) (wrapY y) == l.contains (x, y)

/-! ### WellFormed: the one check refuses what no word stands for -/

theorem test_wf_refuses_clear_display_word : (Instr.unrecognized 0x00E0#16).wf = false := by decide
theorem test_wf_refuses_defined_words : (Instr.unrecognized 0x8127#16).wf = false ∧ (Instr.unrecognized 0xF065#16).wf = false ∧
    (Instr.unrecognized 0x1234#16).wf = false := by decide
theorem test_wf_admits_unlisted_words : (Instr.unrecognized 0x0000#16).wf = true ∧ (Instr.unrecognized 0x800F#16).wf = true ∧
    (Instr.draw 15 0 0).wf = true := by decide

/-! ### Decoding: one word per constructor, bit by bit -/

theorem test_decode_exact : decode 0b0000000011100000#16 = .clearDisplay ∧ decode 0b0000000011101110#16 = .ret := by decide
theorem test_decode_nnn : decode 0b0001101010111100#16 = .jump 0xABC#12 ∧ decode 0b0010101010111100#16 = .call 0xABC#12 ∧
    decode 0b1010101010111100#16 = .setIndex 0xABC#12 ∧ decode 0b1011101010111100#16 = .jumpOffset 0xABC#12 := by decide
theorem test_decode_xnn : decode 0b0011101111001101#16 = .skipEqImm 0xB 0xCD#8 ∧
    decode 0b0100101111001101#16 = .skipNeImm 0xB 0xCD#8 ∧ decode 0b0110101111001101#16 = .setImm 0xB 0xCD#8 ∧
    decode 0b0111101111001101#16 = .addImm 0xB 0xCD#8 ∧ decode 0b1100101111001101#16 = .random 0xB 0xCD#8 := by decide
theorem test_decode_xy : decode 0b0101000100100000#16 = .skipEqReg 1 2 ∧ decode 0b1001000100100000#16 = .skipNeReg 1 2 ∧
    decode 0b1000000100100000#16 = .setReg 1 2 ∧ decode 0b1000000100100001#16 = .orReg 1 2 ∧
    decode 0b1000000100100010#16 = .andReg 1 2 ∧ decode 0b1000000100100011#16 = .xorReg 1 2 := by decide
theorem test_decode_xy_flags : decode 0b1000000100100100#16 = .addReg 1 2 ∧ decode 0b1000000100100101#16 = .subReg 1 2 ∧
    decode 0b1000000100100110#16 = .shiftRight 1 2 ∧ decode 0b1000000100100111#16 = .subRegReverse 1 2 ∧
    decode 0b1000000100101110#16 = .shiftLeft 1 2 := by decide
theorem test_decode_xyn : decode 0b1101000100101111#16 = .draw 1 2 0xF := by decide
theorem test_decode_x_keys : decode 0b1110010110011110#16 = .skipKeyPressed 5 ∧
    decode 0b1110010110100001#16 = .skipKeyNotPressed 5 ∧ decode 0b1111010100001010#16 = .waitKey 5 := by decide
theorem test_decode_x_timers : decode 0b1111010100000111#16 = .getDelayTimer 5 ∧
    decode 0b1111010100010101#16 = .setDelayTimer 5 ∧ decode 0b1111010100011000#16 = .setSoundTimer 5 := by decide
theorem test_decode_x_memory : decode 0b1111010100011110#16 = .addToIndex 5 ∧
    decode 0b1111010100101001#16 = .charSpriteAddress 5 ∧ decode 0b1111010100110011#16 = .storeBcd 5 ∧
    decode 0b1111010101010101#16 = .storeRegisters 5 ∧ decode 0b1111010101100101#16 = .loadRegisters 5 := by decide
/-- 95_test_vectors.md 2.6. -/
theorem test_decode_unrecognized : ([0x0000, 0x00E1, 0x00EF, 0x0123, 0x5001, 0x500F, 0x8008, 0x800D, 0x800F, 0x9001, 0xE000,
    0xE09F, 0xE0A0, 0xF000, 0xF01F, 0xF030, 0xF066, 0xF075, 0xF085, 0xF0FF, 0xFFFF].all fun n =>
      decodeTableWord 16 n == some (.unrecognized (BitVec.ofNat 16 n))) = true := by decide
theorem test_decode_truncated : decodeBytes [0x60#8] = .error .truncated := rfl

/-! ### Control transfer (2.1) -/

theorem test_return : (stepOn { stackAt 1 0 0x204#16 with pc := 0x210#16 } 0x00EE fun t => t.pc == 0x206#16 && t.sp == 0) ∧
    (stepOn { State.reset with pc := 0xFFE#16 } 0x00EE fun t => t.pc == 0x1000#16 && t.flags.stkunf) := by decide
theorem test_return_full : stepOn { stackAt 16 15 0x31E#16 with pc := 0x400#16 } 0x00EE fun t =>
    t.pc == 0x320#16 && t.sp == 15 && !t.flags.stkunf := by decide
theorem test_jump : stepOn { State.reset with pc := 0x208#16 } 0x1204 fun t => t.pc == 0x204#16 := by decide
theorem test_call : (stepOn { State.reset with pc := 0x204#16 } 0x220C fun t =>
      t.stack[0] == 0x204#16 && t.sp == 1 && t.pc == 0x20C#16) ∧
    (stepOn { State.reset with pc := 0xFFE#16, sp := 15 } 0x2ABC fun t =>
      t.stack[15] == 0xFFE#16 && t.sp == 16 && t.pc == 0xABC#16) := by decide
theorem test_call_full : stepOn { State.reset with pc := 0x300#16, sp := 16 } 0x2ABC fun t =>
    t.pc == 0x302#16 && t.flags.stkovf && t.sp == 16 := by decide
theorem test_skip_imm : (stepOn { State.reset with pc := 0x206#16 } 0x3000 fun t => t.pc == 0x20A#16) ∧
    (stepOn (regs [(3, 7#8)]) 0x4307 fun t => t.pc == 0x202#16) := by decide
theorem test_skip_reg : (stepOn (regs [(1, 0x20#8), (2, 0x20#8)]) 0x5120 fun t => t.pc == 0x204#16) ∧
    (stepOn (regs [(1, 0x20#8), (2, 0x21#8)]) 0x9120 fun t => t.pc == 0x204#16) := by decide
theorem test_jump_offset : stepOn (regs [(0, 0xFF#8)]) 0xBFFF fun t => t.pc == 0x10FE#16 := by decide
theorem test_pc_wraps : stepOn { State.reset with pc := 0xFFFE#16 } 0x3000 fun t => t.pc == 0x0002#16 := by decide
theorem test_fetch_wraps : nextIs (step (memAt 0 0xFFF#16 [(0xFFF, 0x61#8), (0, 0x22#8)])) fun t =>
    t.readV 1 == 0x22#8 && t.pc == 0x1001#16 := by decide
theorem test_unrecognized_ticks : stepOn { State.reset with st := 1#8 } 0x0000 fun t =>
    t.flags.unrec && t.flags.sndstop && t.st == 0#8 && t.pc == 0x202#16 := by decide

/-! ### Register load, ALU, random (2.2) -/

theorem test_set_imm : stepOn State.reset 0x6ABC fun t => t.readV 0xA == 0xBC#8 && t.pc == 0x202#16 := by decide
theorem test_add_imm_no_carry : stepOn (regs [(0, 0xFF#8), (15, 9#8)]) 0x7001 fun t =>
    t.readV 0 == 0#8 && t.readV 15 == 9#8 := by decide
theorem test_set_reg : stepOn (regs [(1, 1#8), (2, 0x77#8), (15, 9#8)]) 0x8120 fun t =>
    t.readV 1 == 0x77#8 && t.readV 2 == 0x77#8 && t.readV 15 == 9#8 := by decide
theorem test_or : stepOn (regs [(1, 0x0F#8), (2, 0xF0#8), (15, 9#8)]) 0x8121 fun t =>
    t.readV 1 == 0xFF#8 && t.readV 15 == 9#8 := by decide
theorem test_and : stepOn (regs [(1, 0x3C#8), (2, 0x0F#8), (15, 9#8)]) 0x8122 fun t =>
    t.readV 1 == 0x0C#8 && t.readV 15 == 9#8 := by decide
theorem test_xor : stepOn (regs [(1, 0x3C#8), (2, 0x0F#8), (15, 9#8)]) 0x8123 fun t =>
    t.readV 1 == 0x33#8 && t.readV 15 == 9#8 := by decide
theorem test_add_reg : (stepOn (regs [(1, 0x80#8), (2, 0x80#8)]) 0x8124 fun t => t.readV 1 == 0#8 && t.readV 15 == 1#8) ∧
    (stepOn (regs [(15, 0x10#8), (2, 0x20#8)]) 0x8F24 fun t => t.readV 15 == 0#8) := by decide
theorem test_sub_reg : (stepOn (regs [(1, 7#8), (2, 7#8), (15, 1#8)]) 0x8125 fun t =>
      t.readV 1 == 0#8 && t.readV 15 == 0#8) ∧
    (stepOn (regs [(1, 0x10#8), (15, 0x30#8)]) 0x81F5 fun t => t.readV 1 == 0xE0#8 && t.readV 15 == 0#8) := by decide
theorem test_shift_right : (stepOn (regs [(1, 0x81#8), (2, 0xFF#8)]) 0x8126 fun t =>
      t.readV 1 == 0x40#8 && t.readV 15 == 1#8 && t.readV 2 == 0xFF#8) ∧
    (stepOn (regs [(15, 2#8)]) 0x8F26 fun t => t.readV 15 == 1#8) := by decide
theorem test_sub_reg_reverse : (stepOn (regs [(1, 0x0A#8), (2, 5#8)]) 0x8127 fun t =>
      t.readV 1 == 0xFB#8 && t.readV 15 == 0#8) ∧
    (stepOn (regs [(15, 0x10#8), (2, 0x30#8)]) 0x8F27 fun t => t.readV 15 == 0x20#8) := by decide
theorem test_shift_left : (stepOn (regs [(1, 0x81#8)]) 0x812E fun t => t.readV 1 == 2#8 && t.readV 15 == 1#8) ∧
    (stepOn (regs [(15, 0x7F#8)]) 0x8F2E fun t => t.readV 15 == 0xFE#8) := by decide
/-- The host's cycle carries rnd = A7. -/
theorem test_random : stepOn { State.reset with env := ⟨[.cycle 0xA7#8], 0, []⟩ } 0xC10F fun t =>
    t.readV 1 == 7#8 && t.env.script == [] := by decide

/-! ### Index and memory transfer (2.3) -/

theorem test_set_index : stepOn { State.reset with i := 0xFFFF#16 } 0xAFFF fun t => t.i == 0x0FFF#16 := by decide
theorem test_add_to_index : (stepOn { regs [(1, 5#8)] with i := 0xFFE#16 } 0xF11E fun t => t.i == 0x1003#16) ∧
    (stepOn { regs [(1, 1#8), (15, 7#8)] with i := 0xFFFF#16 } 0xF11E fun t => t.i == 0#16 && t.readV 15 == 7#8) := by decide
theorem test_char_sprite_address : stepOn (regs [(2, 0xFF#8)]) 0xF229 fun t => t.i == 0x4FB#16 := by decide
theorem test_store_bcd : (stepOn { regs [(0, 0x89#8)] with i := 0x300#16 } 0xF033 fun t =>
      t.readBytes 0x300 3 == [1#8, 3#8, 7#8] && t.i == 0x300#16) ∧
    (stepOn { regs [(0, 0xFE#8)] with i := 0x1FFF#16 } 0xF033 fun t =>
      t.memRead 0xFFF == 2#8 && t.memRead 0 == 5#8 && t.memRead 1 == 4#8) := by decide
theorem test_store_registers : stepOn { regs [(0, 0x12#8), (1, 8#8), (2, 0x99#8)] with i := 0x300#16 } 0xF155 fun t =>
    t.readBytes 0x300 3 == [0x12#8, 8#8, 0#8] && t.i == 0x300#16 := by decide
theorem test_load_registers : (stepOn (memAt 0x300#16 0x200#16 [(0x300, 0x10#8), (0x301, 0x11#8), (0x302, 0x12#8)]) 0xF165
      fun t => t.readV 0 == 0x10#8 && t.readV 1 == 0x11#8 && t.readV 2 == 0#8 && t.i == 0x300#16) ∧
    (stepOn (memAt 0xFFF#16 0x200#16 [(0xFFF, 0x77#8)]) 0xF165 fun t =>
      t.readV 0 == 0x77#8 && t.readV 1 == 0xF0#8) := by decide

/-! ### Framebuffer (2.4) -/

theorem test_clear_display : stepOn { State.reset with fb := Frame.blank.setPixel 3 4 true } 0x00E0 fun t =>
    picture t [] && t.flags.redraw := by decide
theorem test_draw_glyph : stepOn State.reset 0xD005 fun t =>
    picture t [(0, 0), (1, 0), (2, 0), (3, 0), (0, 1), (3, 1), (0, 2), (3, 2), (0, 3), (3, 3), (0, 4), (1, 4), (2, 4), (3, 4)] &&
    t.readV 15 == 0#8 && t.flags.redraw := by decide
theorem test_draw_wraps_and_collides : (stepOn ((memAt 0x300#16 0x200#16 [(0x300, 0x80#8), (0x301, 0x80#8)]).writeV 1 0xFF#8)
      0xD112 fun t => picture t [(63, 31), (63, 0)] && t.readV 15 == 0#8) ∧
    (stepOn { memAt 0x300#16 0x200#16 [(0x300, 0xC0#8)] with fb := Frame.blank.setPixel 0 0 true } 0xD001 fun t =>
      picture t [(1, 0)] && t.readV 15 == 1#8) := by decide

/-! ### Timers and keypad (2.5) -/

theorem test_get_delay_timer : stepOn { State.reset with dt := 5#8 } 0xF207 fun t =>
    t.readV 2 == 5#8 && t.dt == 4#8 := by decide
theorem test_set_delay_timer : (stepOn (regs [(0, 0xFF#8)]) 0xF015 fun t => t.dt == 0xFE#8) ∧
    (stepOn State.reset 0xF015 fun t => t.dt == 0#8) := by decide
theorem test_set_sound_timer : (stepOn (regs [(0, 1#8)]) 0xF018 fun t => t.st == 0#8 && t.flags.sndstop) ∧
    (stepOn { regs [(1, 5#8)] with st := 1#8 } 0xF118 fun t => t.st == 4#8 && !t.flags.sndstop && t.soundActive) := by decide
theorem test_skip_key_pressed : (stepOn ((keys [0xA]).writeV 1 0x1A#8) 0xE19E fun t => t.pc == 0x204#16) ∧
    (stepOn (regs [(1, 7#8)]) 0xE19E fun t => t.pc == 0x202#16) := by decide
theorem test_skip_key_not_pressed : (stepOn ((keys [0xB]).writeV 1 0x2B#8) 0xE1A1 fun t => t.pc == 0x202#16) ∧
    (stepOn (keys [1, 2, 3]) 0xE1A1 fun t => t.pc == 0x204#16) := by decide
theorem test_wait_key : (stepOn { regs [(1, 0x55#8)] with dt := 5#8, st := 1#8 } 0xF10A fun t =>
      t.pc == 0x200#16 && t.readV 1 == 0x55#8 && t.dt == 5#8 && t.st == 1#8 && !t.flags.sndstop) ∧
    (stepOn { keys [7, 11] with dt := 5#8 } 0xF10A fun t => t.readV 1 == 7#8 && t.pc == 0x202#16 && t.dt == 4#8) := by decide

/-! ### Host operations (2.7) and the trace -/

theorem test_set_key_out_of_range : State.reset.hostSetKey 16 true = State.reset ∧
    State.reset.hostSetKey (-1) true = State.reset := by decide
theorem test_load_three_bytes : ((State.reset.loadBytes [0x60#8, 0x0A#8, 0x70#8]).readBytes 0x200 4) =
    [0x60#8, 0x0A#8, 0x70#8, 0#8] := by decide
theorem test_load_oversized (b : Byte) : loadAccepted (List.replicate 3585 b) = false ∧
    loadAccepted (List.replicate 3584 b) = true := by
  unfold loadAccepted
  rw [List.length_replicate, List.length_replicate]
  decide
theorem test_trace : stepOn { State.reset with traceEn := true } 0x6A01 fun t =>
    t.env.out == [.trace 0x200#16 0x6A01#16] := by decide
/-- A memory written back to its reset contents is the reset memory again. -/
theorem test_memory_canonical : (State.reset.memWrite 0x300 5#8).memWrite 0x1300 0#8 = State.reset := by decide

/-! ### Witnesses: states and operands that meet the hypotheses of the statements -/

/-- Reset with the host's next commands set. -/
def withScript (l : List Command) : State := { State.reset with env := ⟨l, 0, []⟩ }

/-- Reset with a word placed at PC. -/
def at0 (w : Nat) : State := State.reset.withFetchWord 16 w

theorem witness_RandomResult : (withScript [.cycle 0xA7#8]).env.script = .cycle 0xA7#8 :: [] := rfl
theorem witness_CallResult_below : (stackAt 15 0 0).sp.val < 16 := by decide
theorem witness_CallResult_full : (stackAt 16 0 0).sp.val = 16 := rfl
theorem witness_ReturnResult_one : (stackAt 1 0 0).sp.val = (0 : Fin 16).val + 1 := rfl
theorem witness_ReturnResult_full : (stackAt 16 0 0).sp.val = (15 : Fin 16).val + 1 := rfl
theorem witness_ReturnResult_empty : State.reset.sp.val = 0 := rfl
theorem witness_UnrecognizedWordCycle : (at0 0x500F).cycleDue = true ∧
    unrecognizedWord ((at0 0x500F).fetch16 (at0 0x500F).pc) = true := by decide
theorem witness_CallThenReturn : (stackAt 15 0 0).sp.val < 16 := by decide
theorem witness_StoreRegistersResult : (15 : RegIx) ≤ 15 ∧
    memAddress 0x00E = memAddress (({ State.reset with i := 0xFFF#16 } : State).effective 15) ∧
    ∀ r : RegIx, r ≤ 0 → memAddress 0x301 ≠ memAddress (({ State.reset with i := 0x300#16 } : State).effective r.val) := by
  decide
theorem witness_DrawTwiceRestores : (0 : RegIx) ≠ 15 ∧ (14 : RegIx) ≠ 15 := by decide
theorem witness_KeySkipResults : ((regs [(1, 0xFF#8)]).readV 1).toNat % 16 = (15 : Fin 16).val := by decide
theorem witness_WaitKeyResult_last : (keys [15]).keyDown 15 = true ∧ ∀ j, j < 15 → (keys [15]).keyDown j = false := by decide
theorem witness_WaitKeyResult_first : (keys [0, 3]).keyDown 0 = true ∧ ∀ j, j < 0 → (keys [0, 3]).keyDown j = false := by
  decide
theorem witness_WaitKeyResult_none : ∀ k, State.reset.keyDown k = false := by decide
theorem witness_HeldCycleIsIdentity : (at0 0xF10A).cycleDue = true ∧
    decode ((at0 0xF10A).fetch16 (at0 0xF10A).pc) = .waitKey 1 ∧ ∀ k, (at0 0xF10A).keyDown k = false := by decide
theorem witness_CompletedCycleTicks : ({ at0 0x6000 with st := 1#8 } : State).cycleDue = true ∧
    ({ at0 0x6000 with st := 1#8 } : State).awaitingKey = false := by decide
theorem witness_SoundStopOnlyByTick_exec : exec .clearDisplay State.reset =
    .next (({ State.reset with fb := Frame.blank } : State).report .redraw).advance := rfl
theorem witness_SoundStopOnlyByTick_cycle : ({ at0 0x6000 with st := 1#8 } : State).cycleDue = true := by decide
theorem witness_SoundStopOnlyByTick_host : (withScript [.clearFlags [.sndstop]]).env.script = .clearFlags [.sndstop] :: [] ∧
    (Command.clearFlags [.sndstop]).isCycle = false := ⟨rfl, rfl⟩
theorem witness_StepRunsDecodedInstruction_done : (at0 0x6A01).cycleDue = true ∧ (at0 0x6A01).traceEn = false ∧
    decodeBytes [(at0 0x6A01).memRead (at0 0x6A01).pc.toNat, (at0 0x6A01).memRead ((at0 0x6A01).pc.toNat + 1)] =
      .ok (.setImm 0xA 1#8, []) := ⟨by decide, by decide, by rfl⟩
theorem witness_StepRunsDecodedInstruction_done_case :
    ¬ ((∃ x, Instr.setImm 0xA 1#8 = .waitKey x) ∧ ∀ k, (at0 0x6A01).keyDown k = false) := by
  rintro ⟨⟨x, h⟩, -⟩
  cases h
theorem witness_StepRunsDecodedInstruction_held : ({ at0 0xF10A with traceEn := true } : State).cycleDue = true ∧
    ({ at0 0xF10A with traceEn := true } : State).traceEn = true ∧
    decodeBytes [(at0 0xF10A).memRead (at0 0xF10A).pc.toNat, (at0 0xF10A).memRead ((at0 0xF10A).pc.toNat + 1)] =
      .ok (.waitKey 1, []) ∧
    ((∃ x, Instr.waitKey 1 = .waitKey x) ∧ ∀ k, ({ at0 0xF10A with traceEn := true } : State).keyDown k = false) :=
  ⟨by decide, rfl, by rfl, ⟨1, rfl⟩, by decide⟩
theorem witness_PcOutcomes : exec (.jump 0x204#12) State.reset = .next (State.reset.jumpTo 0x204#16) := rfl
theorem witness_PcOutcomes_stack : exec (.call 0x204#12) (stackAt 16 0 0) = .next ((stackAt 16 0 0).reportCondition .stkovf) ∧
    exec .ret State.reset = .next (State.reset.reportCondition .stkunf) := ⟨rfl, rfl⟩
theorem witness_OnlyNamedFormsWrite : exec (.setIndex 0x204#12) State.reset =
      .next { State.reset with i := 0x204#16 }.advance ∧
    ({ State.reset with i := 0x204#16 } : State).advance.i ≠ State.reset.i := ⟨rfl, by decide⟩
theorem witness_OnlyDestinationsChange : exec (.loadRegisters 14) State.reset =
      .next { State.reset with v := writeRegs 0 (State.reset.bytesAtI 15) State.reset.v }.advance ∧
    mayWriteV (.loadRegisters 14) 15 = false := ⟨rfl, by decide⟩
theorem witness_FlagRegisterIsZeroOrOne : exec (.shiftRight 14 15) State.reset =
      .next (State.reset.flagThenResult 14 (lowBit (State.reset.readV 14)) (State.reset.readV 14 >>> 1)).advance ∧
    (14 : RegIx) ≠ 15 := ⟨rfl, by decide⟩
theorem witness_CyclesKeepFlagsSet : ({ at0 0x6000 with flags := ReportFlags.none.put .unrec true } : State).cycleDue = true ∧
    ({ at0 0x6000 with flags := ReportFlags.none.put .unrec true } : State).flags.get .unrec = true := by decide
theorem witness_FlagsDoNotInfluence : (at0 0x00EE).cycleDue = true := by decide
theorem witness_TraceDoesNotInfluence : (withScript [.cycle 1#8]).cycleDue = true := by decide
theorem witness_OnlyRandomReadsInput : ∀ x nn, decode ((at0 0xD005).fetch16 (at0 0xD005).pc) ≠ .random x nn := by
  have h : decode ((at0 0xD005).fetch16 (at0 0xD005).pc) = .draw 0 0 5 := by decide
  intro x nn hx
  rw [h] at hx
  cases hx
theorem witness_JumpToSelfOnlyTicks : (at0 0x1200).cycleDue = true ∧ (at0 0x1200).atEnd = true := by decide
theorem witness_StepKeepsInvariant : (at0 0xF055).Inv ∧ nextIs (step (at0 0xF055)) (fun _ => true) = true :=
  ⟨by unfold State.Inv; decide, by decide⟩
theorem witness_HostResetRestores : (withScript [.reset, .cycle 0#8]).env.script = .reset :: [.cycle 0#8] := rfl
theorem witness_LoadWritesProgram_most : (withScript [.load (List.replicate 3584 1#8)]).env.script =
    .load (List.replicate 3584 1#8) :: [] ∧ (List.replicate 3584 1#8).length ≤ 3584 :=
  ⟨by unfold withScript; dsimp only, by rw [List.length_replicate]⟩
theorem witness_LoadWritesProgram_over : (withScript [.load (List.replicate 3585 1#8)]).env.script =
    .load (List.replicate 3585 1#8) :: [] ∧ 3584 < (List.replicate 3585 1#8).length :=
  ⟨by unfold withScript; dsimp only, by rw [List.length_replicate]; decide⟩
theorem witness_SetKeySetsOneKey : (withScript [.setKey 15 true]).env.script = .setKey 15 true :: [] ∧
    (withScript [.setKey 16 true]).env.script = .setKey 16 true :: [] := ⟨rfl, rfl⟩
theorem witness_ClearFlagsClearsTheSet : (withScript [.clearFlags [.redraw, .unrec]]).env.script =
    .clearFlags [.redraw, .unrec] :: [] := rfl
theorem witness_SetTraceAndReadFB : (withScript [.setTrace true]).env.script = .setTrace true :: [] ∧
    (withScript [.readFB]).env.script = .readFB :: [] := ⟨rfl, rfl⟩
theorem witness_DecodeOfEncode : (Instr.draw 15 15 15).wf = true ∧ (Instr.unrecognized 0xFFFF#16).wf = true := by decide
theorem witness_LoadWritesProgram_outside : (0x1FF < 4096 ∧ 0x1FF < 0x200) ∧ (0x200 + 3583 < 4096 ∧ 0x200 + 3583 ≤ 0xFFF) := by decide
theorem witness_RowsAreDisjoint : matchesRow 0x00E0#16 .clearDisplay = true ∧ matchesRow 0x00E1#16 .clearDisplay = false := by
  decide

end Sys2Proof.Tests
end

section
/-! PROOFS. Control transfer (41_control_flow.md): the rules of the PC updates and of the arms of `exec` that use them, then
the obligations on jump and on the register skips. -/

namespace Sys2Proof.Machine

/-! ### The PC updates -/

/-- A 12-bit address keeps its value in the 16-bit PC (R91): bits 15:12 are 0. -/
@[simp] theorem addr16_toNat (nnn : Addr12) : (addr16 nnn).toNat = nnn.toNat :=
  BitVec.toNat_setWidth_of_le (by decide)

/-- A skip whose flag decides `p` moves PC by 4 if `p` and by 2 otherwise, and changes nothing else. -/
theorem skipIf_of_iff {c : Bool} {p : Prop} [Decidable p] (s : State) (h : c = true ↔ p) :
    s.skipIf c = { s with pc := if p then s.pc + 4#16 else s.pc + 2#16 } := by
  by_cases hp : p
  · have hc : c = true := h.2 hp
    simp [State.skipIf, hp, hc]
  · have hc : c = false := Bool.eq_false_iff.2 (mt h.1 hp)
    simp [State.skipIf, hp, hc]

/-! ### The arms of `exec` -/

theorem exec_jump (nnn : Addr12) (s : State) : exec (.jump nnn) s = .next (s.jumpTo (addr16 nnn)) := rfl

theorem exec_skipEqImm (x : RegIx) (nn : Byte) (s : State) :
    exec (.skipEqImm x nn) s = .next (s.skipIf (s.readV x == nn)) := rfl

theorem exec_skipNeImm (x : RegIx) (nn : Byte) (s : State) :
    exec (.skipNeImm x nn) s = .next (s.skipIf (s.readV x != nn)) := rfl

theorem exec_skipEqReg (x y : RegIx) (s : State) :
    exec (.skipEqReg x y) s = .next (s.skipIf (s.readV x == s.readV y)) := rfl

theorem exec_skipNeReg (x y : RegIx) (s : State) :
    exec (.skipNeReg x y) s = .next (s.skipIf (s.readV x != s.readV y)) := rfl

/-! ### The obligations -/

/-- Settles O9: the next state is `jumpTo` of the widened address, whose value is NNN. -/
theorem jumpResult : Obligations.JumpResult := by
  unfold Obligations.JumpResult
  intro nnn s
  exact ⟨s.jumpTo (addr16 nnn), exec_jump nnn s, rfl, addr16_toNat nnn⟩

/-- Settles O13: each skip is a `skipIf` whose flag is the Boolean form of the statement's condition. -/
theorem registerSkipResults : Obligations.RegisterSkipResults := by
  unfold Obligations.RegisterSkipResults
  intro x y nn s
  refine ⟨?_, ?_, ?_, ?_⟩
  · rw [exec_skipEqImm, skipIf_of_iff s beq_iff_eq]
  · rw [exec_skipNeImm, skipIf_of_iff s bne_iff_ne]
  · rw [exec_skipEqReg, skipIf_of_iff s beq_iff_eq]
  · rw [exec_skipNeReg, skipIf_of_iff s bne_iff_ne]

end Sys2Proof.Machine
end

section
/-! PROOFS. Register loads, immediate addition and logic (42_alu.md R100 to R105): each of these arms of `exec` writes one
register and steps on, so its frame and its reads are proved once, for the state `(s.writeV x b).advance`. -/

namespace Sys2Proof.Machine

/-! ### The arms of `exec` -/

theorem exec_setImm (x : RegIx) (nn : Byte) (s : State) :
    exec (.setImm x nn) s = .next (s.writeV x nn).advance := rfl

theorem exec_addImm (x : RegIx) (nn : Byte) (s : State) :
    exec (.addImm x nn) s = .next (s.writeV x (s.readV x + nn)).advance := rfl

theorem exec_setReg (x y : RegIx) (s : State) :
    exec (.setReg x y) s = .next (s.writeV x (s.readV y)).advance := rfl

theorem exec_orReg (x y : RegIx) (s : State) :
    exec (.orReg x y) s = .next (s.writeV x (s.readV x ||| s.readV y)).advance := rfl

theorem exec_andReg (x y : RegIx) (s : State) :
    exec (.andReg x y) s = .next (s.writeV x (s.readV x &&& s.readV y)).advance := rfl

theorem exec_xorReg (x y : RegIx) (s : State) :
    exec (.xorReg x y) s = .next (s.writeV x (s.readV x ^^^ s.readV y)).advance := rfl

/-! ### Writing one register and stepping on -/

/-- Only the register file and PC differ after one register is written and PC stepped. -/
theorem writeV_advance_eq (s : State) (x : RegIx) (b : Byte) :
    (s.writeV x b).advance = { s with v := (s.writeV x b).advance.v, pc := s.pc + 2#16 } := rfl

/-- An instruction that answers `(s.writeV x b).advance` has `b` in VX, every other register as before, and the frame of
the result statements. -/
theorem result_of_exec_writeV {i : Instr} {s : State} {x : RegIx} {b : Byte}
    (h : exec i s = .next (s.writeV x b).advance) :
    ∃ t, exec i s = .next t ∧ t = { s with v := t.v, pc := s.pc + 2#16 } ∧
      ∀ r, t.readV r = if r = x then b else s.readV r := by
  refine ⟨_, h, writeV_advance_eq s x b, fun r => ?_⟩
  rw [readV_advance, readV_writeV]

/-- The same with the written byte given by its bits. -/
theorem bitwise_result_of_exec_writeV {i : Instr} {s : State} {x : RegIx} {b : Byte} {bit : Nat → Bool}
    (h : exec i s = .next (s.writeV x b).advance) (hb : ∀ j, b.getLsbD j = bit j) :
    ∃ t, exec i s = .next t ∧ t = { s with v := t.v, pc := s.pc + 2#16 } ∧
      (∀ r, r ≠ x → t.readV r = s.readV r) ∧ ∀ j, j < 8 → (t.readV x).getLsbD j = bit j := by
  obtain ⟨t, hexec, hframe, hread⟩ := result_of_exec_writeV h
  refine ⟨t, hexec, hframe, fun r hr => ?_, fun j _ => ?_⟩
  · rw [hread, if_neg hr]
  · rw [hread, if_pos rfl, hb]

/-! ### The obligations -/

/-- Settles O1: the arm writes NN into VX and steps on. -/
theorem setImmResult : Obligations.SetImmResult := by
  unfold Obligations.SetImmResult
  intro x nn s
  exact result_of_exec_writeV (exec_setImm x nn s)

/-- Settles O2: the byte written is the sum of two bytes, which is the sum of their values modulo 256. -/
theorem addImmResult : Obligations.AddImmResult := by
  unfold Obligations.AddImmResult
  intro x nn s
  have hsum : s.readV x + nn = BitVec.ofNat 8 ((s.readV x).toNat + nn.toNat) := BitVec.add_def ..
  rw [← hsum]
  exact result_of_exec_writeV (exec_addImm x nn s)

/-- Settles O3: the byte written is VY as read before the write. -/
theorem setRegResult : Obligations.SetRegResult := by
  unfold Obligations.SetRegResult
  intro x y s
  exact result_of_exec_writeV (exec_setReg x y s)

/-- Settles O4: each arm writes the bitwise operation of the two old bytes, whose bits are the operation of their bits. -/
theorem logicResults : Obligations.LogicResults := by
  unfold Obligations.LogicResults
  intro x y s
  refine ⟨?_, ?_, ?_⟩
  · exact bitwise_result_of_exec_writeV (exec_orReg x y s) fun _ => BitVec.getLsbD_or
  · exact bitwise_result_of_exec_writeV (exec_andReg x y s) fun _ => BitVec.getLsbD_and
  · exact bitwise_result_of_exec_writeV (exec_xorReg x y s) fun _ => BitVec.getLsbD_xor

end Sys2Proof.Machine
end

section
/-! PROOFS. The index register (43_index_memory.md R120 to R122): each of these arms of `exec` writes I and steps on, so
the frame is proved once and each form adds only the value of its new I. -/

namespace Sys2Proof.Machine

/-! ### The arms of `exec` -/

theorem exec_setIndex (nnn : Addr12) (s : State) :
    exec (.setIndex nnn) s = .next { s with i := addr16 nnn }.advance := rfl

theorem exec_addToIndex (x : RegIx) (s : State) :
    exec (.addToIndex x) s = .next { s with i := s.i + byte16 (s.readV x) }.advance := rfl

theorem exec_charSpriteAddress (x : RegIx) (s : State) :
    exec (.charSpriteAddress x) s =
      .next { s with i := BitVec.ofNat 16 ((s.readV x).toNat * Config.glyphLen) }.advance := rfl

/-! ### The values written into I -/

/-- A byte keeps its value at 16 bits (R121). -/
@[simp] theorem byte16_toNat (b : Byte) : (byte16 b).toNat = b.toNat :=
  BitVec.toNat_setWidth_of_le (by decide)

/-- I + VX is the sum of the values modulo 65536 (R121): I is 16 bits wide. -/
theorem add_byte16_toNat (i : Word) (b : Byte) : (i + byte16 b).toNat = (i.toNat + b.toNat) % 65536 := by
  rw [BitVec.toNat_add, byte16_toNat]

/-- The address of a glyph fits in I (R122): 255 × 5 is below 65536. -/
theorem glyphAddress_toNat (b : Byte) : (BitVec.ofNat 16 (b.toNat * Config.glyphLen)).toNat = b.toNat * 5 := by
  have hb : b.toNat < 256 := b.isLt
  have hlen : Config.glyphLen = 5 := rfl
  rw [hlen, BitVec.toNat_ofNat]
  exact Nat.mod_eq_of_lt (by omega)

/-! ### Writing I and stepping on -/

/-- An instruction that answers the state with I written and PC stepped has the written value in I and the frame of the
result statement. -/
theorem result_of_exec_writeI {ins : Instr} {s : State} {w : Word} {n : Nat}
    (h : exec ins s = .next { s with i := w }.advance) (hw : w.toNat = n) :
    ∃ t, exec ins s = .next t ∧ t = { s with i := t.i, pc := s.pc + 2#16 } ∧ t.i.toNat = n :=
  ⟨_, h, rfl, hw⟩

/-! ### The obligation -/

/-- Settles O17: each arm writes I and steps on, and the three written words have the values of R120, R121 and R122. -/
theorem indexResults : Obligations.IndexResults := by
  unfold Obligations.IndexResults
  intro nnn x s
  refine ⟨?_, ?_, ?_⟩
  · exact result_of_exec_writeI (exec_setIndex nnn s) (addr16_toNat nnn)
  · exact result_of_exec_writeI (exec_addToIndex x s) (add_byte16_toNat s.i (s.readV x))
  · exact result_of_exec_writeI (exec_charSpriteAddress x s) (glyphAddress_toNat (s.readV x))

end Sys2Proof.Machine
end

section
/-! PROOFS. The framebuffer form without operands, clear-display (44_display.md R130). -/

namespace Sys2Proof.Machine

/-- Blanking the framebuffer, reporting REDRAW and stepping on changes FB, the one flag and PC, and nothing else (R130). -/
theorem blank_report_redraw_advance_eq (s : State) :
    (({ s with fb := Frame.blank } : State).report .redraw).advance =
      { s with fb := Frame.blank, pc := s.pc + 2#16, flags := { s.flags with redraw := true } } := rfl

theorem exec_clearDisplay (s : State) :
    exec .clearDisplay s =
      .next { s with fb := Frame.blank, pc := s.pc + 2#16, flags := { s.flags with redraw := true } } :=
  congrArg Host.Outcome.next (blank_report_redraw_advance_eq s)

/-- Settles O24: the next state holds the blank frame, whose every pixel is 0. -/
theorem clearDisplayResult : Obligations.ClearDisplayResult := by
  unfold Obligations.ClearDisplayResult
  intro s
  exact ⟨_, exec_clearDisplay s, rfl, pixel_blank⟩

end Sys2Proof.Machine
end

section
/-! PROOFS. Timer access (45_timers_input.md R140 to R142): the arms of `exec`, what a tick makes of each timer and of
SNDSTOP (60_exceptions.md R160 to R162), and the obligation. -/

namespace Sys2Proof.Machine

/-! ### The arms of `exec` -/

theorem exec_getDelayTimer (x : RegIx) (s : State) :
    exec (.getDelayTimer x) s = .next (s.writeV x s.dt).advance := rfl

theorem exec_setDelayTimer (x : RegIx) (s : State) :
    exec (.setDelayTimer x) s = .next { s with dt := s.readV x, pc := s.pc + 2#16 } := rfl

theorem exec_setSoundTimer (x : RegIx) (s : State) :
    exec (.setSoundTimer x) s = .next { s with st := s.readV x, pc := s.pc + 2#16 } := rfl

/-! ### The tick -/

/-- A countdown is subtraction of naturals: 0 stays 0. -/
theorem countDown_toNat (b : Byte) : (countDown b).toNat = b.toNat - 1 := by
  unfold countDown
  split
  case isTrue hzero => subst hzero; rfl
  case isFalse hne => bv_omega

theorem tick_dt_toNat (s : State) : s.tick.dt.toNat = s.dt.toNat - 1 := by
  rw [State.tick_eq, countDown_toNat]

theorem tick_st_toNat (s : State) : s.tick.st.toNat = s.st.toNat - 1 := by
  rw [State.tick_eq, countDown_toNat]

/-- A tick sets SNDSTOP exactly when it finds ST at 1, and changes no other flag (R162). -/
theorem tick_flags (s : State) :
    s.tick.flags = { s.flags with sndstop := s.flags.sndstop || decide (s.st = 1#8) } := by
  rw [State.tick_eq]
  by_cases hst : s.st = 1#8
  · simp [hst, ReportFlags.put]
  · simp [hst]

/-! ### The obligation -/

/-- Settles O27: get-delay-timer writes one register, the two set forms write one timer, and the tick counts down from the
value that then stands in the timer. -/
theorem timerAccessResults : Obligations.TimerAccessResults := by
  unfold Obligations.TimerAccessResults
  intro x s
  refine ⟨?_, ?_, ?_⟩
  · obtain ⟨t, hexec, hframe, hread⟩ := result_of_exec_writeV (exec_getDelayTimer x s)
    have hdt : t.dt = s.dt := by rw [hframe]
    exact ⟨t, hexec, hframe, hread, by rw [tick_dt_toNat, hdt]⟩
  · exact ⟨_, exec_setDelayTimer x s, rfl, tick_dt_toNat _⟩
  · exact ⟨_, exec_setSoundTimer x s, rfl, tick_st_toNat _, congrArg ReportFlags.sndstop (tick_flags _)⟩

end Sys2Proof.Machine
end

section
/-! PROOFS. No fault and no refusal, and the keypad latch (60_exceptions.md R150, R164). Of the arms of `exec` three branch:
return and call on the stack, wait-key on the latch. Each of their branches has its own equation below; every other arm
is one `.next`. -/

namespace Sys2Proof.Machine

/-! ### The branching arms of `exec` -/

theorem exec_ret_of_pop {s t : State} {a : Word} (h : s.pop = some (a, t)) :
    exec .ret s = .next (t.jumpTo a).advance := by
  simp only [exec, execRet, h]

theorem exec_ret_of_empty {s : State} (h : s.pop = none) : exec .ret s = .next (s.reportCondition .stkunf) := by
  simp only [exec, execRet, h]

theorem exec_call_of_push {s t : State} (nnn : Addr12) (h : s.push s.pc = some t) :
    exec (.call nnn) s = .next (t.jumpTo (addr16 nnn)) := by
  simp only [exec, execCall, h]

theorem exec_call_of_full {s : State} (nnn : Addr12) (h : s.push s.pc = none) :
    exec (.call nnn) s = .next (s.reportCondition .stkovf) := by
  simp only [exec, execCall, h]

theorem exec_waitKey_of_key {s : State} {k : Nat} (x : RegIx) (h : s.leastKey = some k) :
    exec (.waitKey x) s = .next (s.writeV x (BitVec.ofNat 8 k)).advance := by
  simp only [exec, execWaitKey, h]

theorem exec_waitKey_of_noKey {s : State} (x : RegIx) (h : s.leastKey = none) : exec (.waitKey x) s = .next s := by
  simp only [exec, execWaitKey, h]

/-! ### Every arm, every cycle and every step answers a next state -/

theorem exec_answers_next (i : Instr) (s : State) : ∃ t, exec i s = .next t := by
  cases i with
  | ret =>
    cases hpop : s.pop with
    | some p => exact ⟨_, exec_ret_of_pop hpop⟩
    | none => exact ⟨_, exec_ret_of_empty hpop⟩
  | call nnn =>
    cases hpush : s.push s.pc with
    | some t => exact ⟨_, exec_call_of_push nnn hpush⟩
    | none => exact ⟨_, exec_call_of_full nnn hpush⟩
  | waitKey x =>
    cases hkey : s.leastKey with
    | some k => exact ⟨_, exec_waitKey_of_key x hkey⟩
    | none => exact ⟨_, exec_waitKey_of_noKey x hkey⟩
  | _ => exact ⟨_, rfl⟩

theorem cycle_answers_next (s : State) : ∃ t, s.cycle = .next t := by
  obtain ⟨t, hexec⟩ := exec_answers_next (decode (s.fetch16 s.pc)) (s.emitTrace (s.fetch16 s.pc))
  exact ⟨_, cycle_of_exec hexec⟩

/-- A step is either a cycle or an operation of the host's that waits before it (00_scope.md R1). -/
theorem cycleDue_or_hostOp (s : State) :
    s.cycleDue = true ∨ ∃ c rest, s.env.script = c :: rest ∧ c.isCycle = false := by
  unfold State.cycleDue
  cases s.env.script with
  | nil => exact .inl rfl
  | cons c rest =>
    cases hc : c.isCycle with
    | true => exact .inl hc
    | false => exact .inr ⟨c, rest, rfl, hc⟩

theorem step_answers_next (s : State) : ∃ t, step s = .next t := by
  rcases cycleDue_or_hostOp s with hdue | ⟨c, rest, hscript, hop⟩
  · rw [step_of_cycleDue hdue]
    exact cycle_answers_next s
  · exact ⟨_, step_of_hostOp hscript hop⟩

/-! ### The latch under `SetKey` -/

/-- Using up the host's next command changes the script and nothing else. -/
theorem popCommand_of_script {s : State} {c : Command} {rest : List Command} (h : s.env.script = c :: rest) :
    s.popCommand = { s with env := { s.env with script := rest } } := by
  simp only [State.popCommand, h, List.tail_cons]

theorem hostSetKey_frame (s : State) (k : Int) (b : Bool) :
    s.hostSetKey k b = { s with key := (s.hostSetKey k b).key } := by
  unfold State.hostSetKey
  split <;> rfl

/-- One key takes the level `b`; an index that is no key's, too great or negative, takes none (R164). -/
theorem keyDown_hostSetKey (s : State) (k : Int) (b : Bool) (j : Fin 16) :
    (s.hostSetKey k b).keyDown j = if k = (j.val : Int) then b else s.keyDown j := by
  unfold State.hostSetKey
  split
  case isTrue hk =>
    have hindex : k.toNat = j.val ↔ k = (j.val : Int) := by omega
    simp only [State.keyDown, Vector.getElem_setIfInBounds, hindex]
  case isFalse hk =>
    have hne : k ≠ (j.val : Int) := by omega
    rw [if_neg hne]

/-! ### The obligations -/

/-- Settles O34: every arm of `exec` ends in a next state, and a step is a cycle, which keeps that outcome, or an
operation of the host's, which has no other. -/
theorem everyStepAnswersNext : Obligations.EveryStepAnswersNext := by
  unfold Obligations.EveryStepAnswersNext
  exact ⟨exec_answers_next, step_answers_next⟩

/-- Settles O49: the step uses up the command and performs `hostSetKey`, which changes the latch alone. -/
theorem setKeySetsOneKey : Obligations.SetKeySetsOneKey := by
  unfold Obligations.SetKeySetsOneKey
  intro s k b rest hscript
  have hstep : step s = .next (s.popCommand.hostSetKey k b) := step_of_hostOp hscript rfl
  rw [popCommand_of_script hscript] at hstep
  exact ⟨_, hstep, hostSetKey_frame _ k b, keyDown_hostSetKey _ k b⟩

end Sys2Proof.Machine
end

section
/-! PROOFS. The opcode map (30_encoding.md R64, R65): no word satisfies two rows, so decoding is matching a row, and the
words without a row are those of R66's own table. -/

namespace Sys2Proof

/-! ### At most one row -/

/-- A word that satisfies two rows makes their fixed bits agree wherever both masks have a bit. -/
theorem fixed_bits_agree {w : Word} {f g : Form} (hf : matchesRow w f = true) (hg : matchesRow w g = true) :
    rowMatch f &&& rowMask g = rowMatch g &&& rowMask f := by
  rw [matchesRow, beq_iff_eq] at hf hg
  rw [← hf, ← hg, BitVec.and_assoc, BitVec.and_assoc, BitVec.and_comm (rowMask f)]

/-- Two different rows differ in a bit that both masks have: every pair of rows of R65's table, compared. -/
theorem eq_of_fixed_bits_agree : ∀ f ∈ opcodeMap, ∀ g ∈ opcodeMap,
    rowMatch f &&& rowMask g = rowMatch g &&& rowMask f → f = g := by decide

theorem matchesRow_unique {w : Word} {f g : Form} (hf : matchesRow w f = true) (hg : matchesRow w g = true) : f = g :=
  eq_of_fixed_bits_agree f (mem_opcodeMap f) g (mem_opcodeMap g) (fixed_bits_agree hf hg)

/-! ### What decode answers -/

/-- Decoding takes the operands of the one row that the word satisfies. -/
theorem decode_of_matchesRow {w : Word} {f : Form} (h : matchesRow w f = true) : decode w = operandsOf w f := by
  unfold decode
  cases hfind : opcodeMap.find? (matchesRow w) with
  | some g => rw [matchesRow_unique h (List.find?_some hfind)]
  | none => exact absurd h (List.find?_eq_none.1 hfind f (mem_opcodeMap f))

theorem decode_of_no_row {w : Word} (h : ∀ f, ¬ matchesRow w f = true) : decode w = .unrecognized w := by
  have hfind : opcodeMap.find? (matchesRow w) = none := List.find?_eq_none.2 fun f _ => h f
  simp only [decode, hfind]

theorem decode_eq_unrecognized_iff (w : Word) : decode w = .unrecognized w ↔ ∀ f, ¬ matchesRow w f = true := by
  refine ⟨fun h f hf => ?_, decode_of_no_row⟩
  have hform := form_operandsOf w f
  rw [← decode_of_matchesRow hf, h] at hform
  cases hform

/-! ### The table of R66, as arithmetic on the word's fields -/

/-- The rows of R66's table that list words, one disjunct each. -/
theorem unrecognizedWord_iff (w : Word) : unrecognizedWord w = true ↔
    w.toNat / 4096 = 0 ∧ w.toNat ≠ 0xE0 ∧ w.toNat ≠ 0xEE ∨
    w.toNat / 4096 = 5 ∧ w.toNat % 16 ≠ 0 ∨
    w.toNat / 4096 = 8 ∧ 8 ≤ w.toNat % 16 ∧ w.toNat % 16 ≠ 0xE ∨
    w.toNat / 4096 = 9 ∧ w.toNat % 16 ≠ 0 ∨
    w.toNat / 4096 = 0xE ∧ w.toNat % 256 ≠ 0x9E ∧ w.toNat % 256 ≠ 0xA1 ∨
    w.toNat / 4096 = 0xF ∧ w.toNat % 256 ∉ [0x07, 0x0A, 0x15, 0x18, 0x1E, 0x29, 0x33, 0x55, 0x65] := by
  have hw : w.toNat / 4096 < 16 := by omega
  unfold unrecognizedWord
  generalize hp : w.toNat / 4096 = p at hw ⊢
  interval_cases p <;> simp [← BitVec.toNat_inj]

/-- A word that satisfies a row is not listed: each row fixes a primary nibble and, under R66, the low bits that its
table leaves out. -/
theorem not_listed_of_matchesRow {w : Word} {f : Form} (h : matchesRow w f = true) : ¬ unrecognizedWord w = true := by
  have hkept := (matchesRow_iff w f).1 h
  rw [unrecognizedWord_iff]
  simp only [List.mem_cons, List.not_mem_nil, or_false]
  cases f <;> simp only [keptBits, rowMask, rowMatch, BitVec.reduceToNat] at hkept <;> omega

/-- A word without a row is listed: a nibble that R66 leaves out altogether has a row for every word, and in the other
nibbles each value left out of R66's table has a row of its own. Only the rows of the word's own nibble count. -/
theorem listed_of_no_row {w : Word} (h : ∀ f, ¬ matchesRow w f = true) : unrecognizedWord w = true := by
  have hkept : ∀ f ∈ opcodeMap, (rowMatch f).toNat / 4096 = w.toNat / 4096 → keptBits w f ≠ (rowMatch f).toNat :=
    fun f _ _ hf => h f ((matchesRow_iff w f).2 hf)
  have hw : w.toNat / 4096 < 16 := by omega
  rw [unrecognizedWord_iff]
  simp only [opcodeMap, List.cons_append, List.nil_append, List.forall_mem_cons, keptBits, rowMask, rowMatch,
    BitVec.reduceToNat, Nat.reduceDiv] at hkept
  generalize w.toNat / 4096 = p at hw hkept ⊢
  interval_cases p <;> simp at hkept ⊢ <;> omega

theorem unrecognizedWord_iff_no_row (w : Word) : unrecognizedWord w = true ↔ ∀ f, ¬ matchesRow w f = true :=
  ⟨fun h _ hf => not_listed_of_matchesRow hf h, listed_of_no_row⟩

/-! ### The obligations -/

/-- Settles O54: decoding takes the row that the word satisfies, and a word without a row decodes to no form. -/
theorem rowsAreDisjoint : Obligations.RowsAreDisjoint := by
  unfold Obligations.RowsAreDisjoint
  intro w f
  refine ⟨mem_opcodeMap f, fun h => ?_, fun h => ?_⟩
  · rw [decode_of_matchesRow h, form_operandsOf]
  · rcases exists_or_forall_not fun f => matchesRow w f = true with ⟨g, hg⟩ | hnone
    · rw [decode_of_matchesRow hg, form_operandsOf, Option.some.injEq] at h
      rwa [← h]
    · rw [decode_of_no_row hnone] at h
      cases h

/-- Settles O55: both sides say that the word satisfies no row. -/
theorem unrecognizedWordsAreTheListed : Obligations.UnrecognizedWordsAreTheListed := by
  unfold Obligations.UnrecognizedWordsAreTheListed
  intro w
  rw [decode_eq_unrecognized_iff, unrecognizedWord_iff_no_row]

end Sys2Proof
end

section
/-! PROOFS. Encode and decode are inverse (30_encoding.md R60 to R67): the operand fields of a word are read back as they
were put, one lemma per format and field of R62, and a word is its fixed bits with its fields put back. -/

namespace Sys2Proof

/-! ### A field is determined by its bits in place -/

theorem putNibble_toNat {lo : Nat} (hlo : lo ≤ 12) (x : Fin 16) : (putNibble lo x).toNat = x.val * 2 ^ lo := by
  have hpow : 2 ^ lo ≤ 2 ^ 12 := Nat.pow_le_pow_right (by decide) hlo
  have hlt : x.val * 2 ^ lo ≤ 15 * 2 ^ 12 := Nat.mul_le_mul (by omega) hpow
  rw [putNibble, BitVec.toNat_ofNat, Nat.mod_eq_of_lt (by omega)]

theorem putNibble_injective {lo : Nat} (hlo : lo ≤ 12) {x y : Fin 16} (h : putNibble lo x = putNibble lo y) : x = y := by
  have hval := congrArg BitVec.toNat h
  rw [putNibble_toNat hlo, putNibble_toNat hlo] at hval
  exact Fin.ext (Nat.eq_of_mul_eq_mul_right (Nat.two_pow_pos lo) hval)

theorem setWidth_injective {m n : Nat} (hmn : m ≤ n) {a b : BitVec m} (h : a.setWidth n = b.setWidth n) : a = b := by
  have hval := congrArg BitVec.toNat h
  rw [BitVec.toNat_setWidth_of_le hmn, BitVec.toNat_setWidth_of_le hmn] at hval
  exact BitVec.eq_of_toNat_eq hval

theorem fieldX_eq {w : Word} {x : RegIx} (h : w &&& 0x0F00#16 = putNibble 8 x) : fieldX w = x :=
  putNibble_injective (by decide) ((putX_fieldX w).trans h)

theorem fieldY_eq {w : Word} {y : RegIx} (h : w &&& 0x00F0#16 = putNibble 4 y) : fieldY w = y :=
  putNibble_injective (by decide) ((putY_fieldY w).trans h)

theorem fieldN_eq {w : Word} {n : Fin 16} (h : w &&& 0x000F#16 = putNibble 0 n) : fieldN w = n :=
  putNibble_injective (by decide) ((putN_fieldN w).trans h)

theorem fieldNN_eq {w : Word} {nn : Byte} (h : w &&& 0x00FF#16 = nn.setWidth 16) : fieldNN w = nn :=
  setWidth_injective (by decide) ((setWidth_fieldNN w).trans h)

theorem fieldNNN_eq {w : Word} {nnn : Addr12} (h : w &&& 0x0FFF#16 = nnn.setWidth 16) : fieldNNN w = nnn :=
  setWidth_injective (by decide) ((setWidth_fieldNNN w).trans h)

/-! ### Reading a field back from the word it was put into -/

theorem putX_within_X : ∀ x : Fin 16, putNibble 8 x &&& 0x0F00#16 = putNibble 8 x := by decide
theorem putY_within_Y : ∀ y : Fin 16, putNibble 4 y &&& 0x00F0#16 = putNibble 4 y := by decide
theorem putN_within_N : ∀ n : Fin 16, putNibble 0 n &&& 0x000F#16 = putNibble 0 n := by decide
theorem putX_outside_Y : ∀ x : Fin 16, putNibble 8 x &&& 0x00F0#16 = 0#16 := by decide
theorem putX_outside_N : ∀ x : Fin 16, putNibble 8 x &&& 0x000F#16 = 0#16 := by decide
theorem putX_outside_NN : ∀ x : Fin 16, putNibble 8 x &&& 0x00FF#16 = 0#16 := by decide
theorem putY_outside_X : ∀ y : Fin 16, putNibble 4 y &&& 0x0F00#16 = 0#16 := by decide
theorem putY_outside_N : ∀ y : Fin 16, putNibble 4 y &&& 0x000F#16 = 0#16 := by decide
theorem putN_outside_X : ∀ n : Fin 16, putNibble 0 n &&& 0x0F00#16 = 0#16 := by decide
theorem putN_outside_Y : ∀ n : Fin 16, putNibble 0 n &&& 0x00F0#16 = 0#16 := by decide
theorem setWidth_outside_X : ∀ nn : Byte, nn.setWidth 16 &&& 0x0F00#16 = 0#16 := by decide

/-- A mask of the low bits keeps a field that is no wider. -/
theorem setWidth_and_lowMask {n : Nat} (hn : n ≤ 16) (a : BitVec n) :
    a.setWidth 16 &&& BitVec.ofNat 16 (2 ^ n - 1) = a.setWidth 16 := by
  have hpow : 2 ^ n ≤ 2 ^ 16 := Nat.pow_le_pow_right (by decide) hn
  have hpos : 0 < 2 ^ n := Nat.two_pow_pos n
  apply BitVec.eq_of_toNat_eq
  rw [BitVec.toNat_and, BitVec.toNat_setWidth_of_le hn, BitVec.toNat_ofNat, Nat.mod_eq_of_lt (by omega),
    Nat.and_two_pow_sub_one_eq_mod, Nat.mod_eq_of_lt a.isLt]

theorem setWidth_within_NN (nn : Byte) : nn.setWidth 16 &&& 0x00FF#16 = nn.setWidth 16 :=
  setWidth_and_lowMask (by decide) nn

theorem setWidth_within_NNN (nnn : Addr12) : nnn.setWidth 16 &&& 0x0FFF#16 = nnn.setWidth 16 :=
  setWidth_and_lowMask (by decide) nnn

theorem fieldNNN_encodeNNN {f : Form} (hp : rowMatch f &&& 0x0FFF#16 = 0#16) (nnn : Addr12) :
    fieldNNN (encodeNNN f nnn) = nnn :=
  fieldNNN_eq (by simp only [encodeNNN, or_and_mask, hp, setWidth_within_NNN, BitVec.zero_or])

theorem fieldX_encodeXNN {f : Form} (hp : rowMatch f &&& 0x0F00#16 = 0#16) (x : RegIx) (nn : Byte) :
    fieldX (encodeXNN f x nn) = x :=
  fieldX_eq (by simp only [encodeXNN, or_and_mask, hp, putX_within_X, setWidth_outside_X, BitVec.zero_or, BitVec.or_zero])

theorem fieldNN_encodeXNN {f : Form} (hp : rowMatch f &&& 0x00FF#16 = 0#16) (x : RegIx) (nn : Byte) :
    fieldNN (encodeXNN f x nn) = nn :=
  fieldNN_eq (by simp only [encodeXNN, or_and_mask, hp, putX_outside_NN, setWidth_within_NN, BitVec.zero_or])

theorem fieldX_encodeXY {f : Form} (hp : rowMatch f &&& 0x0F00#16 = 0#16) (x y : RegIx) :
    fieldX (encodeXY f x y) = x :=
  fieldX_eq (by simp only [encodeXY, or_and_mask, hp, putX_within_X, putY_outside_X, BitVec.zero_or, BitVec.or_zero])

theorem fieldY_encodeXY {f : Form} (hp : rowMatch f &&& 0x00F0#16 = 0#16) (x y : RegIx) :
    fieldY (encodeXY f x y) = y :=
  fieldY_eq (by simp only [encodeXY, or_and_mask, hp, putX_outside_Y, putY_within_Y, BitVec.zero_or])

theorem fieldX_encodeXYN {f : Form} (hp : rowMatch f &&& 0x0F00#16 = 0#16) (x y : RegIx) (n : Fin 16) :
    fieldX (encodeXYN f x y n) = x :=
  fieldX_eq (by
    simp only [encodeXYN, or_and_mask, hp, putX_within_X, putY_outside_X, putN_outside_X, BitVec.zero_or, BitVec.or_zero])

theorem fieldY_encodeXYN {f : Form} (hp : rowMatch f &&& 0x00F0#16 = 0#16) (x y : RegIx) (n : Fin 16) :
    fieldY (encodeXYN f x y n) = y :=
  fieldY_eq (by
    simp only [encodeXYN, or_and_mask, hp, putX_outside_Y, putY_within_Y, putN_outside_Y, BitVec.zero_or, BitVec.or_zero])

theorem fieldN_encodeXYN {f : Form} (hp : rowMatch f &&& 0x000F#16 = 0#16) (x y : RegIx) (n : Fin 16) :
    fieldN (encodeXYN f x y n) = n :=
  fieldN_eq (by
    simp only [encodeXYN, or_and_mask, hp, putX_outside_N, putY_outside_N, putN_within_N, BitVec.zero_or])

theorem fieldX_encodeX {f : Form} (hp : rowMatch f &&& 0x0F00#16 = 0#16) (x : RegIx) : fieldX (encodeX f x) = x :=
  fieldX_eq (by simp only [encodeX, or_and_mask, hp, putX_within_X, BitVec.zero_or])

/-! ### A word put together from its fixed bits and its fields -/

theorem encodeNNN_fieldNNN {w : Word} {f : Form} (hm : rowMask f = 0xF000#16) (h : matchesRow w f = true) :
    encodeNNN f (fieldNNN w) = w := by
  rw [matchesRow, beq_iff_eq, hm] at h
  rw [encodeNNN, ← h, setWidth_fieldNNN, ← BitVec.and_or_distrib_left]
  exact BitVec.and_allOnes

theorem encodeXNN_fields {w : Word} {f : Form} (hm : rowMask f = 0xF000#16) (h : matchesRow w f = true) :
    encodeXNN f (fieldX w) (fieldNN w) = w := by
  rw [matchesRow, beq_iff_eq, hm] at h
  rw [encodeXNN, ← h, putX_fieldX, setWidth_fieldNN, ← BitVec.and_or_distrib_left, ← BitVec.and_or_distrib_left]
  exact BitVec.and_allOnes

theorem encodeXY_fields {w : Word} {f : Form} (hm : rowMask f = 0xF00F#16) (h : matchesRow w f = true) :
    encodeXY f (fieldX w) (fieldY w) = w := by
  rw [matchesRow, beq_iff_eq, hm] at h
  rw [encodeXY, ← h, putX_fieldX, putY_fieldY, ← BitVec.and_or_distrib_left, ← BitVec.and_or_distrib_left]
  exact BitVec.and_allOnes

theorem encodeXYN_fields {w : Word} {f : Form} (hm : rowMask f = 0xF000#16) (h : matchesRow w f = true) :
    encodeXYN f (fieldX w) (fieldY w) (fieldN w) = w := by
  rw [matchesRow, beq_iff_eq, hm] at h
  rw [encodeXYN, ← h, putX_fieldX, putY_fieldY, putN_fieldN, ← BitVec.and_or_distrib_left, ← BitVec.and_or_distrib_left,
    ← BitVec.and_or_distrib_left]
  exact BitVec.and_allOnes

theorem encodeX_fieldX {w : Word} {f : Form} (hm : rowMask f = 0xF0FF#16) (h : matchesRow w f = true) :
    encodeX f (fieldX w) = w := by
  rw [matchesRow, beq_iff_eq, hm] at h
  rw [encodeX, ← h, putX_fieldX, ← BitVec.and_or_distrib_left]
  exact BitVec.and_allOnes

theorem rowMatch_eq {w : Word} {f : Form} (hm : rowMask f = 0xFFFF#16) (h : matchesRow w f = true) :
    rowMatch f = w := by
  rw [matchesRow, beq_iff_eq, hm] at h
  rw [← h]
  exact BitVec.and_allOnes

/-- Encoding the instruction that a matching row gives rebuilds the word. -/
theorem encode_operandsOf {w : Word} {f : Form} (h : matchesRow w f = true) : encode (operandsOf w f) = w := by
  cases f with
  | clearDisplay | ret => exact rowMatch_eq rfl h
  | jump | call | setIndex | jumpOffset => exact encodeNNN_fieldNNN rfl h
  | skipEqImm | skipNeImm | setImm | addImm | random => exact encodeXNN_fields rfl h
  | draw => exact encodeXYN_fields rfl h
  | skipEqReg | skipNeReg | setReg | orReg | andReg | xorReg | addReg | subReg | shiftRight | subRegReverse | shiftLeft =>
    exact encodeXY_fields rfl h
  | _ => exact encodeX_fieldX rfl h

theorem wf_operandsOf (w : Word) (f : Form) : (operandsOf w f).wf = true := by cases f <;> rfl

/-- The instruction that the row of its form reads from its own word is itself. -/
theorem operandsOf_encode {i : Instr} {f : Form} (h : i.form = some f) : operandsOf (encode i) f = i := by
  cases i with
  | unrecognized w => cases h
  | clearDisplay | ret => cases h; rfl
  | jump nnn | call nnn | setIndex nnn | jumpOffset nnn =>
    cases h
    simp (disch := decide) only [operandsOf, encode, fieldNNN_encodeNNN]
  | skipEqImm x nn | skipNeImm x nn | setImm x nn | addImm x nn | random x nn =>
    cases h
    simp (disch := decide) only [operandsOf, encode, fieldX_encodeXNN, fieldNN_encodeXNN]
  | draw x y n =>
    cases h
    simp (disch := decide) only [operandsOf, encode, fieldX_encodeXYN, fieldY_encodeXYN, fieldN_encodeXYN]
  | skipEqReg x y | skipNeReg x y | setReg x y | orReg x y | andReg x y | xorReg x y | addReg x y | subReg x y
  | shiftRight x y | subRegReverse x y | shiftLeft x y =>
    cases h
    simp (disch := decide) only [operandsOf, encode, fieldX_encodeXY, fieldY_encodeXY]
  | _ =>
    cases h
    simp (disch := decide) only [operandsOf, encode, fieldX_encodeX]

open Laws.MatchesRow in
/-- The family of Laws/PerInstr.lean, over all instructions: an instruction's word satisfies the row of its form. -/
theorem matchesRow_encode : ∀ i : Instr, Statement i
  | .clearDisplay => clearDisplay
  | .ret => ret
  | .jump nnn => jump nnn
  | .call nnn => call nnn
  | .skipEqImm x nn => skipEqImm x nn
  | .skipNeImm x nn => skipNeImm x nn
  | .skipEqReg x y => skipEqReg x y
  | .skipNeReg x y => skipNeReg x y
  | .setImm x nn => setImm x nn
  | .addImm x nn => addImm x nn
  | .setReg x y => setReg x y
  | .orReg x y => orReg x y
  | .andReg x y => andReg x y
  | .xorReg x y => xorReg x y
  | .addReg x y => addReg x y
  | .subReg x y => subReg x y
  | .shiftRight x y => shiftRight x y
  | .subRegReverse x y => subRegReverse x y
  | .shiftLeft x y => shiftLeft x y
  | .setIndex nnn => setIndex nnn
  | .jumpOffset nnn => jumpOffset nnn
  | .random x nn => random x nn
  | .draw x y n => draw x y n
  | .skipKeyPressed x => skipKeyPressed x
  | .skipKeyNotPressed x => skipKeyNotPressed x
  | .getDelayTimer x => getDelayTimer x
  | .waitKey x => waitKey x
  | .setDelayTimer x => setDelayTimer x
  | .setSoundTimer x => setSoundTimer x
  | .addToIndex x => addToIndex x
  | .charSpriteAddress x => charSpriteAddress x
  | .storeBcd x => storeBcd x
  | .storeRegisters x => storeRegisters x
  | .loadRegisters x => loadRegisters x
  | .unrecognized w => unrecognized w

/-! ### The obligations -/

/-- Settles O52: an instruction with a form is read back from its word by the row of that form, and a well-formed
`unrecognized` carries a word without a row. -/
theorem decodeOfEncode : Obligations.DecodeOfEncode := by
  unfold Obligations.DecodeOfEncode
  intro i hwf
  cases hform : i.form with
  | some f => rw [decode_of_matchesRow (matchesRow_encode i f hform), operandsOf_encode hform]
  | none =>
    cases i with
    | unrecognized w => exact decode_of_no_row ((unrecognizedWord_iff_no_row w).1 hwf)
    | _ => cases hform

/-- Settles O53: a word with a row is its fixed bits and its fields put together again; a word without one is carried by
`unrecognized` whole, and R66 lists it. -/
theorem encodeOfDecode : Obligations.EncodeOfDecode := by
  unfold Obligations.EncodeOfDecode
  intro w
  rcases exists_or_forall_not fun f => matchesRow w f = true with ⟨f, hrow⟩ | hnone
  · rw [decode_of_matchesRow hrow]
    exact ⟨wf_operandsOf w f, encode_operandsOf hrow⟩
  · rw [decode_of_no_row hnone]
    exact ⟨(unrecognizedWord_iff_no_row w).2 hnone, rfl⟩

/-- Settles O56: nine closed words, decoded by evaluation. -/
theorem writtenOutWordsDecode : Obligations.WrittenOutWordsDecode := by
  unfold Obligations.WrittenOutWordsDecode
  decide

end Sys2Proof
end

section
/-! PROOFS. Arithmetic with a flag, shifts and random (42_alu.md R106 to R111): each of these arms of `exec` writes the
register file and steps on, so its frame is proved once and each form adds only what the registers read as. -/

namespace Sys2Proof.Machine

/-! ### The arms of `exec` -/

theorem exec_addReg (x y : RegIx) (s : State) : exec (.addReg x y) s =
    .next (s.resultThenFlag x (s.readV x + s.readV y) (carryOut (s.readV x) (s.readV y))).advance := rfl

theorem exec_subReg (x y : RegIx) (s : State) : exec (.subReg x y) s =
    .next (s.flagThenResult x (notBorrow (s.readV x) (s.readV y)) (s.readV x - s.readV y)).advance := rfl

theorem exec_shiftRight (x y : RegIx) (s : State) : exec (.shiftRight x y) s =
    .next (s.flagThenResult x (lowBit (s.readV x)) (s.readV x >>> 1)).advance := rfl

theorem exec_subRegReverse (x y : RegIx) (s : State) : exec (.subRegReverse x y) s =
    .next (s.flagThenResult x (notBorrow (s.readV y) (s.readV x)) (s.readV y - s.readV x)).advance := rfl

theorem exec_shiftLeft (x y : RegIx) (s : State) : exec (.shiftLeft x y) s =
    .next (s.flagThenResult x (highBit (s.readV x)) (s.readV x <<< 1)).advance := rfl

theorem exec_random (x : RegIx) (nn : Byte) (s : State) :
    exec (.random x nn) s = .next (s.writeV x (s.rnd &&& nn)).advance := rfl

/-! ### Writing a result and its flag, and stepping on -/

/-- An instruction that answers `(s.resultThenFlag x result flag).advance`: VF ends as the flag. -/
theorem result_of_exec_resultThenFlag {i : Instr} {s : State} {x : RegIx} {result flag : Byte}
    (h : exec i s = .next (s.resultThenFlag x result flag).advance) :
    ∃ t, exec i s = .next t ∧ t = { s with v := t.v, pc := s.pc + 2#16 } ∧
      ∀ r, t.readV r = if r = 15 then flag else if r = x then result else s.readV r :=
  ⟨_, h, rfl, fun r => readV_resultThenFlag s x r result flag⟩

/-- An instruction that answers `(s.flagThenResult x flag result).advance`: VX ends as the result. -/
theorem result_of_exec_flagThenResult {i : Instr} {s : State} {x : RegIx} {result flag : Byte}
    (h : exec i s = .next (s.flagThenResult x flag result).advance) :
    ∃ t, exec i s = .next t ∧ t = { s with v := t.v, pc := s.pc + 2#16 } ∧
      ∀ r, t.readV r = if r = x then result else if r = 15 then flag else s.readV r :=
  ⟨_, h, rfl, fun r => readV_flagThenResult s x r flag result⟩

/-! ### The bytes written, as numbers -/

theorem carryOut_eq (a b : Byte) : carryOut a b = if 255 < a.toNat + b.toNat then 1#8 else 0#8 := by
  simp only [carryOut, flagByte, decide_eq_true_eq]

theorem notBorrow_eq (a b : Byte) : notBorrow a b = if b.toNat < a.toNat then 1#8 else 0#8 := by
  simp only [notBorrow, flagByte, decide_eq_true_eq]

theorem byte_sub_eq (a b : Byte) : a - b = BitVec.ofNat 8 (a.toNat + 256 - b.toNat) := by bv_omega

theorem byte_half_eq (a : Byte) : a >>> 1 = BitVec.ofNat 8 (a.toNat / 2) := by bv_omega

theorem byte_double_eq (a : Byte) : a <<< 1 = BitVec.ofNat 8 (2 * a.toNat) := by bv_omega

/-! ### The obligations -/

/-- Settles O5: the sum is written first and the carry second, so with X = 0xF the carry remains. -/
theorem addRegResult : Obligations.AddRegResult := by
  unfold Obligations.AddRegResult
  intro x y s
  rw [← carryOut_eq, ← BitVec.add_def]
  exact result_of_exec_resultThenFlag (exec_addReg x y s)

/-- Settles O6: not-borrow is written first and the difference second; the reverse form exchanges the operands. -/
theorem subtractResults : Obligations.SubtractResults := by
  unfold Obligations.SubtractResults
  intro x y s
  simp only [← notBorrow_eq, ← byte_sub_eq]
  exact ⟨result_of_exec_flagThenResult (exec_subReg x y s), result_of_exec_flagThenResult (exec_subRegReverse x y s)⟩

/-- Settles O7: the bit shifted out is written first and the shifted value second, whatever Y is. -/
theorem shiftResults : Obligations.ShiftResults := by
  unfold Obligations.ShiftResults
  intro x y s
  rw [← byte_half_eq, ← byte_double_eq]
  exact ⟨result_of_exec_flagThenResult (exec_shiftRight x y s), result_of_exec_flagThenResult (exec_shiftLeft x y s)⟩

/-- Settles O8: the byte written is the masked random input, which is the host's where its next command is a cycle. -/
theorem randomResult : Obligations.RandomResult := by
  unfold Obligations.RandomResult
  intro x nn s
  refine ⟨result_of_exec_writeV (exec_random x nn s), fun b rest hscript => ?_⟩
  simp only [State.rnd, hscript]

end Sys2Proof.Machine
end

section
/-! PROOFS. Jumps with an offset, call and return, and the unrecognized word (41_control_flow.md R90 to R97, 40_cycle.md
R84). -/

namespace Sys2Proof.Machine

/-! ### The arms of `exec` -/

theorem exec_jumpOffset (nnn : Addr12) (s : State) :
    exec (.jumpOffset nnn) s = .next (s.jumpTo (addr16 nnn + byte16 (s.readV regV0))) := rfl

theorem exec_unrecognized (w : Word) (s : State) :
    exec (.unrecognized w) s = .next { s with pc := s.pc + 2#16, flags := { s.flags with unrec := true } } := rfl

/-- NNN + V0 stays below 65536 (R97). -/
theorem jumpOffset_target_toNat (nnn : Addr12) (b : Byte) : (addr16 nnn + byte16 b).toNat = nnn.toNat + b.toNat := by
  have hnnn : nnn.toNat < 4096 := nnn.isLt
  have hb : b.toNat < 256 := b.isLt
  rw [add_byte16_toNat, addr16_toNat, Nat.mod_eq_of_lt (by omega)]

/-- Everything call does when the stack is not full (R92). -/
theorem exec_call_of_lt (nnn : Addr12) {s : State} (h : s.sp.val < 16) : exec (.call nnn) s =
    .next { s with stack := s.stack.set s.sp.val s.pc, sp := ⟨s.sp.val + 1, by omega⟩, pc := addr16 nnn } :=
  exec_call_of_push nnn (push_of_lt h s.pc)

/-- Everything return does when the stack is not empty (R90). -/
theorem exec_ret_of_pos {s : State} (h : 0 < s.sp.val) : exec .ret s =
    .next { s with sp := ⟨s.sp.val - 1, by omega⟩, pc := s.stack[s.sp.val - 1]'(by omega) + 2#16 } :=
  exec_ret_of_pop (pop_of_pos h)

/-! ### The obligations -/

/-- Settles O10: the target is the widened NNN plus the widened V0, which needs no reduction. -/
theorem jumpOffsetResult : Obligations.JumpOffsetResult := by
  unfold Obligations.JumpOffsetResult
  intro nnn s
  exact ⟨_, exec_jumpOffset nnn s, rfl, jumpOffset_target_toNat nnn (s.readV 0)⟩

/-- Settles O11: the push writes the entry at SP and no other; a full stack takes nothing and is reported. -/
theorem callResult : Obligations.CallResult := by
  unfold Obligations.CallResult
  intro nnn s
  refine ⟨fun hlt => ⟨_, exec_call_of_lt nnn hlt, rfl, addr16_toNat nnn, rfl, fun j => ?_⟩, fun hfull => ?_⟩
  · simp only [Vector.getElem_set, eq_comm]
  · exact exec_call_of_full nnn (push_of_full (by omega) s.pc)

/-- Settles O12: the pop reads the entry below SP; an empty stack gives nothing and is reported. -/
theorem returnResult : Obligations.ReturnResult := by
  unfold Obligations.ReturnResult
  intro s
  refine ⟨fun j hj => ⟨_, exec_ret_of_pos (by omega), ?_, by simp only [hj]; omega⟩, fun hempty => ?_⟩
  · simp only [hj, Nat.add_sub_cancel]
  · exact exec_ret_of_empty (pop_of_empty (by omega))

/-- Settles O14: the arm reports UNREC and steps on, and does not read the word. -/
theorem unrecognizedResult : Obligations.UnrecognizedResult := by
  unfold Obligations.UnrecognizedResult
  exact exec_unrecognized

/-- Settles O16: after the call SP is above 0, and the entry that the return reads is the one the call wrote. -/
theorem callThenReturn : Obligations.CallThenReturn := by
  unfold Obligations.CallThenReturn
  intro nnn s hlt
  refine ⟨_, _, exec_call_of_lt nnn hlt, exec_ret_of_pos (Nat.succ_pos _), ?_, fun j hj => ?_⟩
  · simp
  · exact Vector.getElem_set_ne hlt j.isLt (Ne.symm hj)

end Sys2Proof.Machine
end

section
/-! PROOFS. Memory transfer (43_index_memory.md R123 to R125) over read-after-write (20_memory.md R41 to R44, R53). -/

namespace Sys2Proof.Machine

/-! ### The arms of `exec` -/

theorem exec_storeBcd (x : RegIx) (s : State) :
    exec (.storeBcd x) s = .next (s.writeBytes (s.effective 0) (bcdDigits (s.readV x))).advance := rfl

theorem exec_storeRegisters (x : RegIx) (s : State) :
    exec (.storeRegisters x) s = .next (s.writeBytes (s.effective 0) (s.regsUpTo x)).advance := rfl

theorem exec_loadRegisters (x : RegIx) (s : State) :
    exec (.loadRegisters x) s = .next { s with v := writeRegs 0 (s.bytesAtI (x.val + 1)) s.v }.advance := rfl

/-! ### What is stored and loaded -/

theorem effective_zero_add (s : State) (k : Nat) : s.effective 0 + k = s.effective k := by
  simp only [State.effective, Nat.add_zero]

/-- Three bytes stored in a row: the three addresses differ modulo 4096, so none of the bytes overwrites another. -/
theorem memRead_writeBytes_three (s : State) (a c : Nat) (b0 b1 b2 : Byte) :
    (s.writeBytes a [b0, b1, b2]).memRead c =
      if memAddress c = memAddress a then b0
      else if memAddress c = memAddress (a + 1) then b1
      else if memAddress c = memAddress (a + 2) then b2 else s.memRead c := by
  split
  next h0 => exact memRead_writeBytes [b0, b1, b2] s a c 0 (by simp) (by simp) h0
  next h0 =>
    split
    next h1 => exact memRead_writeBytes [b0, b1, b2] s a c 1 (by simp) (by simp) h1
    next h1 =>
      split
      next h2 => exact memRead_writeBytes [b0, b1, b2] s a c 2 (by simp) (by simp) h2
      next h2 =>
        refine memRead_writeBytes_of_ne [b0, b1, b2] s a c fun k hk => ?_
        have hk3 : k < 3 := hk
        interval_cases k
        · exact h0
        · exact h1
        · exact h2

/-- After store-registers, the address I + r reads as Vr for r up to X (R124): at most 16 bytes, so no wrap overlaps. -/
theorem memRead_storeRegisters (s : State) {x r : RegIx} (hr : r ≤ x) {a : Nat}
    (ha : memAddress a = memAddress (s.effective r.val)) :
    (s.writeBytes (s.effective 0) (s.regsUpTo x)).memRead a = s.readV r := by
  have hlen : r.val < (s.regsUpTo x).length := by
    rw [length_regsUpTo]
    exact Nat.lt_succ_of_le hr
  rw [memRead_writeBytes _ s _ a r.val hlen (by rw [length_regsUpTo]; omega) (by rwa [effective_zero_add]),
    getElem_regsUpTo]

/-- The register file after load-registers (R125). -/
theorem readV_loadRegisters (s : State) (x r : RegIx) :
    ({ s with v := writeRegs 0 (s.bytesAtI (x.val + 1)) s.v } : State).readV r =
      if r ≤ x then s.memRead (s.effective r.val) else s.readV r := by
  have hrange : (0 ≤ r.val ∧ r.val < 0 + (s.bytesAtI (x.val + 1)).length) ↔ r ≤ x := by
    rw [State.bytesAtI, length_readBytes, Fin.le_def]
    omega
  simp only [State.readV, getElem_writeRegs, hrange]
  split
  · simp only [State.bytesAtI, getElem_readBytes, Nat.sub_zero, effective_zero_add]
  · rfl

/-! ### The obligations -/

/-- Settles O18: three bytes stored in a row, read back at every address. -/
theorem storeBcdResult : Obligations.StoreBcdResult := by
  unfold Obligations.StoreBcdResult
  intro x s
  exact ⟨_, exec_storeBcd x s, rfl, fun a => memRead_writeBytes_three s (s.effective 0) a _ _ _⟩

/-- Settles O19: each stored byte is read back at its address, and the addresses of no stored byte read as before. -/
theorem storeRegistersResult : Obligations.StoreRegistersResult := by
  unfold Obligations.StoreRegistersResult
  intro x s
  refine ⟨_, exec_storeRegisters x s, rfl, fun r hr a ha => memRead_storeRegisters s hr ha, fun a ha => ?_⟩
  refine memRead_writeBytes_of_ne _ s _ a fun k hk => ?_
  rw [length_regsUpTo] at hk
  rw [effective_zero_add]
  exact ha ⟨k, by omega⟩ (by simp only [Fin.le_def]; omega)

/-- Settles O20: the bytes read at I, I + 1, ... go into V0 to VX and into no other register. -/
theorem loadRegistersResult : Obligations.LoadRegistersResult := by
  unfold Obligations.LoadRegistersResult
  intro x s
  exact ⟨_, exec_loadRegisters x s, rfl, readV_loadRegisters s x⟩

/-- Settles O21: neither form changes I, so the load reads the addresses that the store wrote. -/
theorem storeThenLoadRestores : Obligations.StoreThenLoadRestores := by
  unfold Obligations.StoreThenLoadRestores
  intro x s v'
  refine ⟨_, _, exec_storeRegisters x s, exec_loadRegisters x _, rfl, fun r => ?_⟩
  rw [readV_advance, readV_loadRegisters]
  split
  next hr => exact memRead_storeRegisters s hr rfl
  next => rfl

/-- Settles O22: read after write, with both addresses reduced. -/
theorem readAfterWrite : Obligations.ReadAfterWrite := by
  unfold Obligations.ReadAfterWrite
  intro s a c b
  exact ⟨memRead_memWrite s a c b, rfl⟩

/-- The two bytes of a word are its value. -/
theorem wordOfBytes_toNat (hi lo : Byte) : (wordOfBytes hi lo).toNat = hi.toNat * 256 + lo.toNat := by
  have hhi : hi.toNat < 256 := hi.isLt
  have hlo : lo.toNat < 256 := lo.isLt
  rw [wordOfBytes, BitVec.toNat_ofNat, Nat.mod_eq_of_lt (by omega)]

/-- Settles O23: PC and PC + 1 differ modulo 4096, so both stored bytes are read back, high byte first. -/
theorem storedBytesAreFetched : Obligations.StoredBytesAreFetched := by
  unfold Obligations.StoredBytesAreFetched
  intro s pc hi lo
  have hne : memAddress pc.toNat ≠ memAddress (pc.toNat + 1) := by
    simp only [memAddress, Config.memSize]
    omega
  rw [fetch16_eq, wordOfBytes_toNat, memRead_memWrite, memRead_memWrite, memRead_memWrite, if_neg hne, if_pos rfl,
    if_pos rfl]

end Sys2Proof.Machine
end

section
/-! PROOFS. draw (44_display.md R131): the frame of the arm, its pixels and its collision, and drawing twice. -/

namespace Sys2Proof.Machine

/-- The state after draw: the drawn frame, the collision in VF, REDRAW, and PC stepped (R131). -/
def State.afterDraw (s : State) (x y : RegIx) (n : Fin 16) : State :=
  { (s.writeV regVF (flagByte (s.drawn x y n).hit)) with
    fb := (s.drawn x y n).fb, pc := s.pc + 2#16, flags := { s.flags with redraw := true } }

theorem exec_draw (x y : RegIx) (n : Fin 16) (s : State) : exec (.draw x y n) s = .next (s.afterDraw x y n) := rfl

theorem pixel_afterDraw (s : State) (x y : RegIx) (n : Fin 16) (px : Fin 64) (py : Fin 32) :
    (s.afterDraw x y n).fb.pixel px py = (s.fb.pixel px py ^^ s.spriteSets x y n px py) :=
  pixel_drawn s x y n px py

theorem readV_afterDraw (s : State) (x y : RegIx) (n : Fin 16) (r : RegIx) :
    (s.afterDraw x y n).readV r = if r = 15 then flagByte (s.drawn x y n).hit else s.readV r :=
  readV_writeV s regVF r (flagByte (s.drawn x y n).hit)

theorem flagByte_eq_one_iff (c : Bool) : flagByte c = 1#8 ↔ c = true := by
  cases c <;> decide

/-- VF is 1 exactly when some pixel that was set has a set source bit (R131). -/
theorem readV_afterDraw_vf_iff (s : State) (x y : RegIx) (n : Fin 16) :
    (s.afterDraw x y n).readV 15 = 1#8 ↔ ∃ px py, s.spriteSets x y n px py = true ∧ s.fb.pixel px py = true := by
  rw [readV_afterDraw, if_pos rfl, flagByte_eq_one_iff, hit_drawn]

/-- With X and Y not 0xF the drawn sprite is the same before and after a draw: its position and bytes are not touched. -/
theorem spriteSets_afterDraw (s : State) {x y : RegIx} (hx : x ≠ 15) (hy : y ≠ 15) (n : Fin 16) (px : Fin 64)
    (py : Fin 32) : (s.afterDraw x y n).spriteSets x y n px py = s.spriteSets x y n px py := by
  have hmem : ∀ a, (s.afterDraw x y n).memRead a = s.memRead a := memRead_congr rfl
  have heff : ∀ k, (s.afterDraw x y n).effective k = s.effective k := fun _ => rfl
  simp only [State.spriteSets, readV_afterDraw, if_neg hx, if_neg hy, hmem, heff]

/-! ### The obligations -/

/-- Settles O25: a pixel goes from 1 to 0 exactly when it was set and has a set source bit. -/
theorem drawResult : Obligations.DrawResult := by
  unfold Obligations.DrawResult
  intro x y n s
  refine ⟨_, exec_draw x y n s, rfl, pixel_afterDraw s x y n, fun r hr => ?_, ?_, ?_⟩
  · rw [readV_afterDraw, if_neg hr]
  · rw [readV_afterDraw, if_pos rfl]
    exact flagByte_zero_or_one _
  · rw [readV_afterDraw_vf_iff]
    refine exists_congr fun px => exists_congr fun py => ?_
    rw [pixel_afterDraw]
    cases s.fb.pixel px py <;> cases s.spriteSets x y n px py <;> decide

/-- Settles O26: the same bits are exclusive-ored in twice, and the second draw meets a set pixel exactly where the first
set one. -/
theorem drawTwiceRestores : Obligations.DrawTwiceRestores := by
  unfold Obligations.DrawTwiceRestores
  intro x y n s hx hy
  refine ⟨_, _, exec_draw x y n s, exec_draw x y n _, frame_ext fun px py => ?_, ?_⟩
  · rw [pixel_afterDraw, pixel_afterDraw, spriteSets_afterDraw s hx hy, Bool.xor_assoc, Bool.xor_self, Bool.xor_false]
  · rw [readV_afterDraw_vf_iff]
    refine exists_congr fun px => exists_congr fun py => ?_
    rw [pixel_afterDraw, spriteSets_afterDraw s hx hy]
    cases s.fb.pixel px py <;> cases s.spriteSets x y n px py <;> decide

end Sys2Proof.Machine
end

section
/-! PROOFS. The keypad forms (45_timers_input.md R143 to R145). -/

namespace Sys2Proof.Machine

theorem exec_skipKeyPressed (x : RegIx) (s : State) :
    exec (.skipKeyPressed x) s = .next (s.skipIf (s.keyDown (keyIndex (s.readV x)))) := rfl

theorem exec_skipKeyNotPressed (x : RegIx) (s : State) :
    exec (.skipKeyNotPressed x) s = .next (s.skipIf (!s.keyDown (keyIndex (s.readV x)))) := rfl

/-- Settles O28: both forms test the key that VX mod 16 names, one its level and the other the complement. -/
theorem keySkipResults : Obligations.KeySkipResults := by
  unfold Obligations.KeySkipResults
  intro x k s hk
  have hindex : keyIndex (s.readV x) = k := Fin.ext hk
  refine ⟨?_, ?_⟩
  · rw [exec_skipKeyPressed, hindex, skipIf_of_iff s Iff.rfl]
  · rw [exec_skipKeyNotPressed, hindex, skipIf_of_iff s (Bool.not_eq_true' _).to_iff]

/-- Settles O29: the scan finds the least pressed key, or none. -/
theorem waitKeyResult : Obligations.WaitKeyResult := by
  unfold Obligations.WaitKeyResult
  intro x s
  refine ⟨fun k hdown hleast => ?_, fun hnone => ?_⟩
  · exact result_of_exec_writeV (exec_waitKey_of_key x ((leastKey_eq_some s k).2 ⟨hdown, hleast⟩))
  · exact exec_waitKey_of_noKey x ((leastKey_eq_none s).2 hnone)

end Sys2Proof.Machine
end

section
/-! PROOFS. The execute step over all instructions (10_state.md sections 1, 2 and 4): what it may change, which registers it
may write, and where PC goes. The branching arms, call, return and wait-key, are taken apart once. -/

namespace Sys2Proof.Machine

/-! ### The branching arms, inverted -/

theorem exec_call_cases {nnn : Addr12} {s t : State} (h : exec (.call nnn) s = .next t) :
    (∃ hlt : s.sp.val < 16, t =
      { s with stack := s.stack.set s.sp.val s.pc, sp := ⟨s.sp.val + 1, by omega⟩, pc := addr16 nnn }) ∨
    s.sp.val = 16 ∧ t = { s with flags := s.flags.put .stkovf true, pc := s.pc + 2#16 } := by
  by_cases hlt : s.sp.val < 16
  · rw [exec_call_of_lt nnn hlt] at h
    cases h
    exact .inl ⟨hlt, rfl⟩
  · rw [exec_call_of_full nnn (push_of_full hlt s.pc)] at h
    cases h
    exact .inr ⟨by omega, rfl⟩

theorem exec_ret_cases {s t : State} (h : exec .ret s = .next t) :
    (∃ hpos : 0 < s.sp.val, t =
      { s with sp := ⟨s.sp.val - 1, by omega⟩, pc := s.stack[s.sp.val - 1]'(by omega) + 2#16 }) ∨
    s.sp.val = 0 ∧ t = { s with flags := s.flags.put .stkunf true, pc := s.pc + 2#16 } := by
  by_cases hpos : 0 < s.sp.val
  · rw [exec_ret_of_pos hpos] at h
    cases h
    exact .inl ⟨hpos, rfl⟩
  · rw [exec_ret_of_empty (pop_of_empty hpos)] at h
    cases h
    exact .inr ⟨by omega, rfl⟩

theorem exec_waitKey_cases {x : RegIx} {s t : State} (h : exec (.waitKey x) s = .next t) :
    (∃ k, s.leastKey = some k ∧ t = (s.writeV x (BitVec.ofNat 8 k)).advance) ∨ s.leastKey = none ∧ t = s := by
  cases hkey : s.leastKey with
  | some k =>
    rw [exec_waitKey_of_key x hkey] at h
    cases h
    exact .inl ⟨k, rfl, rfl⟩
  | none =>
    rw [exec_waitKey_of_noKey x hkey] at h
    cases h
    exact .inr ⟨rfl, rfl⟩

/-! ### What an instruction may change outside the general registers -/

/-- `Changes s i t`: `t` differs from `s` in the general registers, in PC, and in the pieces of state that 10_state.md
section 1 lets the form of `i` write. -/
inductive Changes (s : State) : Instr → State → Prop
  | registers (i : Instr) (v : Vector Byte 16) (pc : Word) : Changes s i { s with v := v, pc := pc }
  | index (i : Instr) (hi : (∃ nnn, i = .setIndex nnn) ∨ (∃ x, i = .addToIndex x) ∨ ∃ x, i = .charSpriteAddress x)
      (w pc : Word) : Changes s i { s with i := w, pc := pc }
  | call (nnn : Addr12) (stack : Vector Word 16) (sp : Fin 17) (pc : Word) (flags : ReportFlags) :
      Changes s (.call nnn) { s with stack := stack, sp := sp, pc := pc, flags := flags }
  | ret (sp : Fin 17) (pc : Word) (flags : ReportFlags) : Changes s .ret { s with sp := sp, pc := pc, flags := flags }
  | delayTimer (x : RegIx) (dt : Byte) (pc : Word) : Changes s (.setDelayTimer x) { s with dt := dt, pc := pc }
  | soundTimer (x : RegIx) (st : Byte) (pc : Word) : Changes s (.setSoundTimer x) { s with st := st, pc := pc }
  | display (i : Instr) (hi : i = .clearDisplay ∨ ∃ x y n, i = .draw x y n) (v : Vector Byte 16) (fb : Frame) (pc : Word)
      (flags : ReportFlags) : Changes s i { s with v := v, fb := fb, pc := pc, flags := flags }
  | memory (i : Instr) (hi : (∃ x, i = .storeBcd x) ∨ ∃ x, i = .storeRegisters x) (a : Nat) (bs : List Byte) (pc : Word) :
      Changes s i { s.writeBytes a bs with pc := pc }
  | unrecognized (w pc : Word) (flags : ReportFlags) : Changes s (.unrecognized w) { s with pc := pc, flags := flags }

theorem exec_changes {i : Instr} {s t : State} (h : exec i s = .next t) : Changes s i t := by
  cases i with
  | setIndex nnn => cases h; exact .index _ (.inl ⟨nnn, rfl⟩) _ _
  | addToIndex x => cases h; exact .index _ (.inr (.inl ⟨x, rfl⟩)) _ _
  | charSpriteAddress x => cases h; exact .index _ (.inr (.inr ⟨x, rfl⟩)) _ _
  | call nnn =>
    rcases exec_call_cases h with ⟨hlt, rfl⟩ | ⟨-, rfl⟩
    · exact .call nnn _ _ _ s.flags
    · exact .call nnn s.stack s.sp _ _
  | ret =>
    rcases exec_ret_cases h with ⟨hpos, rfl⟩ | ⟨-, rfl⟩
    · exact .ret _ _ s.flags
    · exact .ret s.sp _ _
  | setDelayTimer x => cases h; exact .delayTimer x _ _
  | setSoundTimer x => cases h; exact .soundTimer x _ _
  | clearDisplay => cases h; exact .display _ (.inl rfl) s.v _ _ _
  | draw x y n => cases h; exact .display _ (.inr ⟨x, y, n, rfl⟩) _ _ _ _
  | storeBcd x => cases h; exact .memory _ (.inl ⟨x, rfl⟩) _ _ _
  | storeRegisters x => cases h; exact .memory _ (.inr ⟨x, rfl⟩) _ _ _
  | unrecognized w => cases h; exact .unrecognized w _ _
  | waitKey x =>
    rcases exec_waitKey_cases h with ⟨k, -, rfl⟩ | ⟨-, rfl⟩
    · exact .registers _ _ _
    · exact .registers _ t.v t.pc
  | jump | jumpOffset | skipEqImm | skipNeImm | skipEqReg | skipNeReg | skipKeyPressed | skipKeyNotPressed =>
    cases h; exact .registers _ s.v _
  | _ => cases h; exact .registers _ _ _

/-- Settles O36: each group of `Changes` leaves every field but its own as it was. -/
theorem onlyNamedFormsWrite : Obligations.OnlyNamedFormsWrite := by
  unfold Obligations.OnlyNamedFormsWrite
  intro i s t h
  cases exec_changes h with
  | registers | call | ret | delayTimer | soundTimer | unrecognized => simp
  | index _ hi => simpa using fun _ => hi
  | display _ hi => rcases hi with rfl | ⟨x, y, n, rfl⟩ <;> simp
  | memory _ hi => simpa using fun _ => hi

/-! ### Which general registers an instruction may write -/

/-- Settles O37: every write to a register goes to one that `mayWriteV` names. -/
theorem onlyDestinationsChange : Obligations.OnlyDestinationsChange := by
  unfold Obligations.OnlyDestinationsChange
  intro i s t h r hr
  cases i with
  | setImm x _ | addImm x _ | setReg x _ | orReg x _ | andReg x _ | xorReg x _ | random x _ | getDelayTimer x =>
    cases h
    rw [readV_advance, readV_writeV, if_neg (beq_eq_false_iff_ne.1 hr)]
  | waitKey x =>
    rcases exec_waitKey_cases h with ⟨k, -, rfl⟩ | ⟨-, rfl⟩
    · rw [readV_advance, readV_writeV, if_neg (beq_eq_false_iff_ne.1 hr)]
    · rfl
  | addReg x y =>
    cases h
    obtain ⟨hx, hvf⟩ := Bool.or_eq_false_iff.1 hr
    rw [readV_advance, readV_resultThenFlag, if_neg (beq_eq_false_iff_ne.1 hvf), if_neg (beq_eq_false_iff_ne.1 hx)]
  | subReg x _ | shiftRight x _ | subRegReverse x _ | shiftLeft x _ =>
    cases h
    obtain ⟨hx, hvf⟩ := Bool.or_eq_false_iff.1 hr
    rw [readV_advance, readV_flagThenResult, if_neg (beq_eq_false_iff_ne.1 hx), if_neg (beq_eq_false_iff_ne.1 hvf)]
  | draw x y n =>
    cases h
    exact (readV_afterDraw s x y n r).trans (if_neg (beq_eq_false_iff_ne.1 hr))
  | loadRegisters x =>
    cases h
    rw [readV_advance, readV_loadRegisters, if_neg (of_decide_eq_false hr)]
  | call nnn => rcases exec_call_cases h with ⟨hlt, rfl⟩ | ⟨-, rfl⟩ <;> rfl
  | ret => rcases exec_ret_cases h with ⟨hpos, rfl⟩ | ⟨-, rfl⟩ <;> rfl
  | _ => cases h; rfl

/-- A flag-first form whose destination is not VF leaves the flag in VF. -/
theorem readV_vf_flagThenResult (s : State) {x : RegIx} (hx : x ≠ 15) (flag result : Byte) :
    (s.flagThenResult x flag result).advance.readV 15 = flag := by
  rw [readV_advance, readV_flagThenResult, if_neg hx.symm]
  exact if_pos rfl

/-- Settles O38: what stands in VF after each of these forms is a flag byte or the one bit that a shift pushes out. -/
theorem flagRegisterIsZeroOrOne : Obligations.FlagRegisterIsZeroOrOne := by
  unfold Obligations.FlagRegisterIsZeroOrOne
  rintro x y n i s t h (rfl | rfl | ⟨hx, rfl | rfl | rfl | rfl⟩)
  · cases h
    rw [readV_advance, readV_resultThenFlag]
    exact flagByte_zero_or_one _
  · rw [exec_draw] at h
    cases h
    rw [readV_afterDraw, if_pos rfl]
    exact flagByte_zero_or_one _
  all_goals
    cases h
    rw [readV_vf_flagThenResult s hx]
  · exact flagByte_zero_or_one _
  · exact flagByte_zero_or_one _
  · exact lowBit_zero_or_one _
  · exact highBit_zero_or_one _

/-! ### Where PC goes -/

theorem skipIf_pc_or (s : State) (c : Bool) : (s.skipIf c).pc = s.pc + 2#16 ∨ (s.skipIf c).pc = s.pc + 4#16 := by
  cases c
  · exact .inl rfl
  · exact .inr rfl

/-- Settles O35: the jumps and the branches of call, return and wait-key give PC by name; a skip has two ways to go; every
other arm ends in `advance`. -/
theorem pcOutcomes : Obligations.PcOutcomes := by
  unfold Obligations.PcOutcomes
  intro i s t h
  cases i with
  | jump nnn => cases h; exact addr16_toNat nnn
  | jumpOffset nnn => cases h; exact jumpOffset_target_toNat nnn (s.readV 0)
  | call nnn =>
    rcases exec_call_cases h with ⟨hlt, rfl⟩ | ⟨hfull, rfl⟩
    · exact ⟨fun _ => addr16_toNat nnn, fun hfull => absurd hfull (by omega)⟩
    · exact ⟨fun hlt => absurd hlt (by omega), fun _ => rfl⟩
  | ret =>
    rcases exec_ret_cases h with ⟨hpos, rfl⟩ | ⟨hempty, rfl⟩
    · refine ⟨fun j hj => ?_, fun hempty => absurd hempty (by omega)⟩
      simp only [hj, Nat.add_sub_cancel]
    · exact ⟨fun j hj => absurd hj (by omega), fun _ => rfl⟩
  | skipEqImm | skipNeImm | skipEqReg | skipNeReg | skipKeyPressed | skipKeyNotPressed =>
    cases h
    exact skipIf_pc_or s _
  | waitKey x =>
    rcases exec_waitKey_cases h with ⟨k, hkey, rfl⟩ | ⟨hnone, rfl⟩
    · have hdown : ¬ ∀ k, s.keyDown k = false := by rw [← leastKey_eq_none, hkey]; exact Option.some_ne_none k
      exact (if_neg hdown).symm
    · exact (if_pos ((leastKey_eq_none t).1 hnone)).symm
  | _ => cases h; rfl

end Sys2Proof.Machine
end

section
/-! PROOFS. Reset and the host's operations (70_reset_and_hazards.md R170 to R173, 60_exceptions.md R164 to R169): what each
changes, what it makes of memory and of SNDSTOP, and the step that performs it. -/

namespace Sys2Proof.Machine

/-! ### The step that performs an operation -/

/-- A step that performs the host's next command, with the command already taken off the script. -/
theorem step_performs {s : State} {c : Command} {rest : List Command} (h : s.env.script = c :: rest)
    (hop : c.isCycle = false) : step s = .next (({ s with env := { s.env with script := rest } } : State).perform c) := by
  rw [step_of_hostOp h hop, popCommand_of_script h]

/-! ### Load -/

theorem loadAccepted_iff (bytes : List Byte) : loadAccepted bytes = true ↔ bytes.length ≤ 3584 := decide_eq_true_iff

theorem loadBytes_of_accepted (s : State) {bytes : List Byte} (h : loadAccepted bytes = true) :
    s.loadBytes bytes = s.writeBytes Config.progBase bytes := by
  rw [State.loadBytes, if_pos h]

theorem loadBytes_of_rejected (s : State) {bytes : List Byte} (h : loadAccepted bytes = false) :
    s.loadBytes bytes = s := by
  rw [State.loadBytes, h]
  rfl

/-- `Load` changes memory and no other piece of the machine (R172). -/
theorem loadBytes_frame (s : State) (bytes : List Byte) :
    s.loadBytes bytes = { s with mem := (s.loadBytes bytes).mem } := by
  unfold State.loadBytes
  split <;> rfl

theorem memAddress_of_lt {a : Nat} (h : a < 4096) : memAddress a = a := Nat.mod_eq_of_lt h

/-- An accepted program ends inside the address space, so its bytes stand at 0x200 upward without wrapping. -/
theorem memAddress_program {bytes : List Byte} (hlen : bytes.length ≤ 3584) {k : Nat} (hk : k < bytes.length) :
    memAddress (Config.progBase + k) = Config.progBase + k :=
  memAddress_of_lt (by simp only [Config.progBase]; omega)

/-! ### ClearFlags -/

theorem ReportFlags.get_clear (f : ReportFlags) (ns : List ReportFlag) (n : ReportFlag) :
    (f.clear ns).get n = if n ∈ ns then false else f.get n := by
  induction ns generalizing f with
  | nil => rfl
  | cons m ns ih =>
    rw [ReportFlags.clear, ih, ReportFlags.get_put]
    by_cases hhead : n = m <;> by_cases htail : n ∈ ns <;> simp [hhead, htail]

/-! ### What the operations make of memory and of SNDSTOP -/

/-- Of the host's operations only `Reset` and `Load` write memory. -/
theorem perform_keeps_wf {s : State} (hwf : s.mem.wf = true) (c : Command) : (s.perform c).mem.wf = true := by
  cases c with
  | reset => exact wf_reset
  | load bytes =>
    change (s.loadBytes bytes).mem.wf = true
    unfold State.loadBytes
    split
    · exact wf_writeBytes bytes hwf Config.progBase
    · exact hwf
  | setKey k b =>
    rw [State.perform, hostSetKey_frame]
    exact hwf
  | _ => exact hwf

/-- Of the host's operations only `Reset` and a `ClearFlags` that names it change SNDSTOP, and they clear it. -/
theorem perform_sndstop (s : State) (c : Command) : (s.perform c).flags.sndstop = true ↔
    s.flags.sndstop = true ∧ c ≠ .reset ∧ ∀ ns, c = .clearFlags ns → ReportFlag.sndstop ∉ ns := by
  cases c with
  | reset => simp [State.perform, State.hostReset, State.reset, ReportFlags.none]
  | clearFlags ns =>
    have hget : (s.flags.clear ns).sndstop = if ReportFlag.sndstop ∈ ns then false else s.flags.sndstop :=
      ReportFlags.get_clear s.flags ns .sndstop
    simp [State.perform, State.hostClearFlags, hget, and_comm]
  | load bytes =>
    rw [State.perform, State.hostLoad, loadBytes_frame]
    simp
  | setKey k b =>
    rw [State.perform, hostSetKey_frame]
    simp
  | cycle | setTrace | readFB => simp [State.perform, State.hostSetTrace, State.hostReadFB]

/-! ### The obligations -/

/-- Memory after reset reads as its reset content: FONT, and 0 above it (20_memory.md R46, R47). -/
theorem memRead_reset {a : Nat} (h : a < 4096) : State.reset.memRead a = Config.font.getD a 0#8 :=
  congrArg Memory.resetByte (memAddress_of_lt h)

theorem font_length : Config.font.length = 80 := rfl

/-- Settles O46: register, stack and key values come from constant vectors, memory from FONT. -/
theorem resetValues : Obligations.ResetValues := by
  unfold Obligations.ResetValues
  refine ⟨by decide, rfl, rfl, by decide, rfl, rfl, rfl, pixel_blank, by decide, fun n => ?_, rfl, font_length,
    fun a ha => memRead_reset (by omega), fun a hfont hmem => ?_⟩
  · cases n <;> rfl
  · rw [memRead_reset hmem, List.getD_eq_default _ _ (by rw [font_length]; exact hfont)]

/-- Settles O47: `Reset` puts every piece of the machine at its reset value and keeps the env. -/
theorem hostResetRestores : Obligations.HostResetRestores := by
  unfold Obligations.HostResetRestores
  intro s rest hscript
  exact step_performs hscript rfl

/-- Settles O48: an accepted program is stored in one run of bytes that does not wrap; a rejected one is not stored. -/
theorem loadWritesProgram : Obligations.LoadWritesProgram := by
  unfold Obligations.LoadWritesProgram
  intro s bytes rest hscript
  have hstep := step_performs hscript rfl
  refine ⟨fun hlen => ?_, fun hlen => ?_⟩
  · rw [State.perform, State.hostLoad, (loadAccepted_iff bytes).2 hlen,
      loadBytes_of_accepted _ ((loadAccepted_iff bytes).2 hlen)] at hstep
    refine ⟨_, hstep, rfl, fun k hk => ?_, fun a ha hout => ?_⟩
    · exact memRead_writeBytes bytes _ Config.progBase _ k hk (by omega) rfl
    · refine memRead_writeBytes_of_ne bytes _ Config.progBase a fun k hk => ?_
      rw [memAddress_of_lt ha, memAddress_program hlen hk, Config.progBase]
      omega
  · have hrejected : loadAccepted bytes = false := Bool.eq_false_iff.2 (mt (loadAccepted_iff bytes).1 (by omega))
    rw [State.perform, State.hostLoad, hrejected, loadBytes_of_rejected _ hrejected] at hstep
    exact hstep

/-- Settles O50: clearing goes through the list, and a flag that it names once or more is 0. -/
theorem clearFlagsClearsTheSet : Obligations.ClearFlagsClearsTheSet := by
  unfold Obligations.ClearFlagsClearsTheSet
  intro s ns rest hscript
  exact ⟨_, step_performs hscript rfl, rfl, ReportFlags.get_clear s.flags ns⟩

/-- Settles O51: the one writes TRACE_EN, the other gives out the framebuffer. -/
theorem setTraceAndReadFB : Obligations.SetTraceAndReadFB := by
  unfold Obligations.SetTraceAndReadFB
  intro s rest
  exact ⟨fun b hscript => step_performs hscript rfl, fun hscript => step_performs hscript rfl⟩

end Sys2Proof.Machine
end

section
/-! PROOFS. The execute step neither reads the report flags and TRACE_EN nor, but for random, the model's env (10_state.md
section 5, 60_exceptions.md R165): from states that differ in these it answers states that differ in these, and the flag it
raises is the same. -/

namespace Sys2Proof.Machine

/-- The state with other report flags, another TRACE_EN and another env. -/
def State.withOutside (s : State) (f : ReportFlags) (b : Bool) (e : Env) : State :=
  { s with flags := f, traceEn := b, env := e }

/-- What one execute step does to the report flags: nothing, or it raises one, which is not SNDSTOP. -/
def Raises (g : ReportFlags → ReportFlags) : Prop :=
  g = id ∨ ∃ n, n ≠ .sndstop ∧ g = fun f => f.put n true

theorem raises_id : Raises id := .inl rfl

theorem raises_put {n : ReportFlag} (h : n ≠ .sndstop) : Raises fun f => f.put n true := .inr ⟨n, h, rfl⟩

/-- A raised flag stays, and the others are as they were (decision D14). -/
theorem Raises.keeps {g : ReportFlags → ReportFlags} (hg : Raises g) {f : ReportFlags} {n : ReportFlag}
    (h : f.get n = true) : (g f).get n = true := by
  rcases hg with rfl | ⟨m, -, rfl⟩
  · exact h
  · rw [ReportFlags.get_put, h, ite_self]

theorem Raises.sndstop_eq {g : ReportFlags → ReportFlags} (hg : Raises g) (f : ReportFlags) :
    (g f).sndstop = f.sndstop := by
  rcases hg with rfl | ⟨m, hm, rfl⟩
  · rfl
  · exact (ReportFlags.get_put f m .sndstop true).trans (if_neg hm.symm)

/-- The execute step from a state with other report flags, TRACE_EN and env; only random asks for the same random input. -/
theorem exec_withOutside {i : Instr} {s t : State} (h : exec i s = .next t) :
    ∃ g, Raises g ∧ ∀ f b e, ((∃ x nn, i = .random x nn) → (s.withOutside f b e).rnd = s.rnd) →
      exec i (s.withOutside f b e) = .next (t.withOutside (g f) b e) := by
  cases i with
  | clearDisplay | draw x y n =>
    cases h
    exact ⟨_, raises_put (n := .redraw) (by decide), fun _ _ _ _ => rfl⟩
  | unrecognized w =>
    cases h
    exact ⟨_, raises_put (n := .unrec) (by decide), fun _ _ _ _ => rfl⟩
  | call nnn =>
    rcases exec_call_cases h with ⟨hlt, rfl⟩ | ⟨hfull, rfl⟩
    · exact ⟨_, raises_id, fun f b e _ => exec_call_of_lt nnn (s := s.withOutside f b e) hlt⟩
    · exact ⟨_, raises_put (n := .stkovf) (by decide), fun f b e _ =>
        exec_call_of_full nnn (push_of_full (s := s.withOutside f b e) (hfull.not_lt) s.pc)⟩
  | ret =>
    rcases exec_ret_cases h with ⟨hpos, rfl⟩ | ⟨hempty, rfl⟩
    · exact ⟨_, raises_id, fun f b e _ => exec_ret_of_pos (s := s.withOutside f b e) hpos⟩
    · exact ⟨_, raises_put (n := .stkunf) (by decide), fun f b e _ =>
        exec_ret_of_empty (pop_of_empty (s := s.withOutside f b e) (hempty.not_gt))⟩
  | waitKey x =>
    rcases exec_waitKey_cases h with ⟨k, hkey, rfl⟩ | ⟨hnone, rfl⟩
    · exact ⟨_, raises_id, fun f b e _ => exec_waitKey_of_key x (s := s.withOutside f b e) hkey⟩
    · exact ⟨_, raises_id, fun f b e _ => exec_waitKey_of_noKey x (s := t.withOutside f b e) hnone⟩
  | random x nn =>
    cases h
    refine ⟨_, raises_id, fun f b e hrnd => ?_⟩
    rw [exec_random, hrnd ⟨x, nn, rfl⟩]
    rfl
  | _ =>
    cases h
    exact ⟨_, raises_id, fun _ _ _ _ => rfl⟩

/-- The execute step raises one report flag or none, and that is not SNDSTOP. -/
theorem exec_flags {i : Instr} {s t : State} (h : exec i s = .next t) : ∃ g, Raises g ∧ t.flags = g s.flags := by
  obtain ⟨g, hg, hexec⟩ := exec_withOutside h
  have hself : exec i s = .next (t.withOutside (g s.flags) s.traceEn s.env) := hexec s.flags s.traceEn s.env fun _ => rfl
  exact ⟨g, hg, congrArg State.flags (Host.Outcome.next.inj (h.symm.trans hself))⟩

theorem exec_keeps_sndstop {i : Instr} {s t : State} (h : exec i s = .next t) :
    t.flags.sndstop = s.flags.sndstop := by
  obtain ⟨g, hg, hflags⟩ := exec_flags h
  rw [hflags, hg.sndstop_eq]

end Sys2Proof.Machine
end

section
/-! PROOFS. The cycle (40_cycle.md R80 to R87): the step as trace, execute and tick, said for one cycle and for cycles that
differ in the report flags, TRACE_EN and the env; then what every cycle keeps and does. -/

namespace Sys2Proof.Machine

/-! ### The trace record and the end of a cycle, as updates -/

/-- The env with the trace record of R86 given out, if TRACE_EN is `b`. -/
def Env.traced (e : Env) (b : Bool) (pc w : Word) : Env :=
  { e with out := if b = true then e.out ++ [.trace pc w] else e.out }

theorem emitTrace_withEnv (s : State) (w : Word) : s.emitTrace w = { s with env := s.env.traced s.traceEn s.pc w } := by
  rw [State.emitTrace_eq]
  cases h : s.traceEn <;> simp [Env.traced]

theorem emitTrace_mem (s : State) (w : Word) : (s.emitTrace w).mem = s.mem := by rw [emitTrace_withEnv]

theorem emitTrace_flags (s : State) (w : Word) : (s.emitTrace w).flags = s.flags := by rw [emitTrace_withEnv]

/-- Everything the end of a cycle does (R80 step 5, R85): the tick unless the cycle was held, and the input used up. -/
theorem endCycle_eq (t : State) (held : Bool) : t.endCycle held = { t with
    dt := if held then t.dt else countDown t.dt
    st := if held then t.st else countDown t.st
    flags := if held then t.flags else { t.flags with sndstop := t.flags.sndstop || decide (t.st = 1#8) }
    env := { t.env with script := t.env.script.tail, draws := t.env.draws + 1 } } := by
  cases held
  · rw [endCycle_done, ← tick_flags, State.tick_eq]
    rfl
  · rfl

theorem endCycle_mem (t : State) (held : Bool) : (t.endCycle held).mem = t.mem := by rw [endCycle_eq]

/-! ### A step is a cycle or an operation of the host's -/

/-- A due cycle whose execute step answers `u` ends `u`'s cycle. -/
theorem step_of_exec {s u : State} (hdue : s.cycleDue = true)
    (h : exec (decode (s.fetch16 s.pc)) (s.emitTrace (s.fetch16 s.pc)) = .next u) :
    step s = .next (u.endCycle s.awaitingKey) :=
  (step_of_cycleDue hdue).trans (cycle_of_exec h)

/-- Everything a step can do. -/
theorem step_cases {s t : State} (h : step s = .next t) :
    (∃ i u, exec i (s.emitTrace (s.fetch16 s.pc)) = .next u ∧ t = u.endCycle s.awaitingKey) ∨
    ∃ c, t = s.popCommand.perform c := by
  rcases cycleDue_or_hostOp s with hdue | ⟨c, rest, hscript, hop⟩
  · obtain ⟨u, hexec⟩ := exec_answers_next (decode (s.fetch16 s.pc)) (s.emitTrace (s.fetch16 s.pc))
    rw [step_of_exec hdue hexec] at h
    exact .inl ⟨_, u, hexec, (Host.Outcome.next.inj h).symm⟩
  · rw [step_of_hostOp hscript hop] at h
    exact .inr ⟨c, (Host.Outcome.next.inj h).symm⟩

/-! ### The invariant -/

theorem exec_keeps_wf {i : Instr} {s t : State} (hwf : s.mem.wf = true) (h : exec i s = .next t) : t.mem.wf = true := by
  cases exec_changes h with
  | memory _ _ a bs => exact wf_writeBytes bs hwf a
  | _ => exact hwf

/-- Settles O44: memory lists nothing after reset. -/
theorem resetMeetsInvariant : Obligations.ResetMeetsInvariant := by
  unfold Obligations.ResetMeetsInvariant
  exact wf_reset

/-- Settles O45: the trace record, the tick and the using up of the input leave memory alone; the execute step and the
host's operations write it by `MemWrite` only, or reset it. -/
theorem stepKeepsInvariant : Obligations.StepKeepsInvariant := by
  unfold Obligations.StepKeepsInvariant State.Inv
  intro s t hinv hstep
  rcases step_cases hstep with ⟨i, u, hexec, rfl⟩ | ⟨c, rfl⟩
  · rw [endCycle_mem]
    exact exec_keeps_wf (by rwa [emitTrace_mem]) hexec
  · exact perform_keeps_wf (s := s.popCommand) hinv c

/-! ### Completed and held cycles -/

/-- A due cycle that is not held, from what its execute step answers: the tick, from the values execute left. -/
theorem completed_cycle {s u : State} (hdue : s.cycleDue = true) (hkey : s.awaitingKey = false)
    (hexec : exec (decode (s.fetch16 s.pc)) (s.emitTrace (s.fetch16 s.pc)) = .next u) : ∃ t, step s = .next t ∧
      t = { u with dt := t.dt, st := t.st, flags := t.flags, env := t.env } ∧
      t.dt.toNat = u.dt.toNat - 1 ∧ t.st.toNat = u.st.toNat - 1 ∧
      t.flags = { u.flags with sndstop := u.flags.sndstop || decide (u.st = 1#8) } := by
  have hstep := step_of_exec hdue hexec
  rw [hkey, endCycle_done] at hstep
  refine ⟨_, hstep, ?_, tick_dt_toNat u, tick_st_toNat u, tick_flags u⟩
  rw [State.tick_eq]
  rfl

/-- A cycle on a word that decodes to another form than wait-key is never held (R83). -/
theorem awaitingKey_eq_false {s : State} (h : waitsForKey (decode (s.fetch16 s.pc)) = false) :
    s.awaitingKey = false := by
  rw [State.awaitingKey, holds, h, Bool.false_and]

/-- Settles O31: the execute step answers some next state, and the cycle ends in the tick of it. -/
theorem completedCycleTicks : Obligations.CompletedCycleTicks := by
  unfold Obligations.CompletedCycleTicks
  intro s hdue hkey
  obtain ⟨u, hexec⟩ := exec_answers_next (decode (s.fetch16 s.pc)) (s.emitTrace (s.fetch16 s.pc))
  obtain ⟨t, ht⟩ := completed_cycle hdue hkey hexec
  exact ⟨u, t, hexec, ht⟩

/-- Settles O15: a listed word decodes to `unrecognized`, whose execute step sets UNREC and PC before the tick. -/
theorem unrecognizedWordCycle : Obligations.UnrecognizedWordCycle := by
  unfold Obligations.UnrecognizedWordCycle
  intro s hdue hlisted
  have hdecode := (unrecognizedWordsAreTheListed (s.fetch16 s.pc)).2 hlisted
  have hexec := exec_unrecognized (s.fetch16 s.pc) (s.emitTrace (s.fetch16 s.pc))
  rw [← hdecode] at hexec
  obtain ⟨t, hstep, hframe, htick⟩ := completed_cycle hdue (awaitingKey_eq_false (by rw [hdecode]; rfl)) hexec
  rw [emitTrace_withEnv] at hframe htick
  exact ⟨t, hstep, hframe, htick⟩

/-- At the end of a run the word at PC is a jump to PC (70_reset_and_hazards.md R179). -/
theorem decode_of_atEnd {s : State} (h : s.atEnd = true) :
    ∃ nnn, decode (s.fetch16 s.pc) = .jump nnn ∧ addr16 nnn = s.pc := by
  unfold State.atEnd at h
  split at h
  next nnn hdecode => exact ⟨nnn, hdecode, eq_of_beq h⟩
  next => cases h

/-- Settles O43: the jump puts into PC what stands there. -/
theorem jumpToSelfOnlyTicks : Obligations.JumpToSelfOnlyTicks := by
  unfold Obligations.JumpToSelfOnlyTicks
  intro s hdue hend
  obtain ⟨nnn, hdecode, hself⟩ := decode_of_atEnd hend
  have hexec := exec_jump nnn (s.emitTrace (s.fetch16 s.pc))
  rw [← hdecode, hself] at hexec
  obtain ⟨t, hstep, hframe, htick⟩ := completed_cycle hdue (awaitingKey_eq_false (by rw [hdecode]; rfl)) hexec
  rw [emitTrace_withEnv] at hframe htick
  exact ⟨t, hstep, hframe, htick⟩

/-- Settles O30: the execute step of a held wait-key changes nothing, and the end of a held cycle uses up the input. -/
theorem heldCycleIsIdentity : Obligations.HeldCycleIsIdentity := by
  unfold Obligations.HeldCycleIsIdentity
  intro x s hdue hdecode hnone
  have hheld : s.awaitingKey = true := (holds_iff _ s).2 ⟨⟨x, hdecode⟩, hnone⟩
  have hexec : exec (decode (s.fetch16 s.pc)) (s.emitTrace (s.fetch16 s.pc)) = .next (s.emitTrace (s.fetch16 s.pc)) := by
    rw [hdecode, emitTrace_withEnv]
    exact exec_waitKey_of_noKey x ((leastKey_eq_none s).2 hnone)
  rw [step_of_exec hdue hexec, hheld, emitTrace_withEnv]
  rfl

/-- Settles O33: the instruction that the two bytes at PC decode to is the one the cycle executes, and the cycle is held
exactly when that is wait-key and no key is down. -/
theorem stepRunsDecodedInstruction : Obligations.StepRunsDecodedInstruction := by
  unfold Obligations.StepRunsDecodedInstruction
  intro s i hdue hbytes
  have hdecode : decode (s.fetch16 s.pc) = i := congrArg Prod.fst (Except.ok.inj hbytes)
  obtain ⟨t, hexec⟩ := exec_answers_next i (s.emitTrace (s.fetch16 s.pc))
  have hstep : step s = .next (t.endCycle (holds i s)) := by
    rw [← hdecode] at hexec ⊢
    exact step_of_exec hdue hexec
  refine ⟨t, hexec, fun htrace => ?_, fun htrace => ?_, fun hheld => ?_, fun hdone => ?_⟩
  · simp only [State.emitTrace, htrace, Bool.false_eq_true, if_false]
  · simp only [State.emitTrace, htrace, if_true, State.emit]
  · rw [hstep, (holds_iff i s).2 hheld, endCycle_held]
  · rw [hstep, Bool.eq_false_iff.2 (mt (holds_iff i s).1 hdone), endCycle_done]

end Sys2Proof.Machine
end

section
/-! PROOFS. Report flags, TRACE_EN and the random input across a cycle (10_state.md section 5, 60_exceptions.md R162,
R165): SNDSTOP comes from the tick alone, no flag is cleared, and none of the three influences the rest. -/

namespace Sys2Proof.Machine

/-! ### Cycles that differ in the report flags, TRACE_EN and the env -/

/-- The steps from all states that differ from `s` in the report flags, TRACE_EN and the env end the cycle of one and the
same execute step: `t` and `g` do not depend on what differs. -/
theorem step_withOutside (s : State) : ∃ (t : State) (g : ReportFlags → ReportFlags), ∀ f b e,
    (s.withOutside f b e).cycleDue = true →
    ((∃ x nn, decode (s.fetch16 s.pc) = .random x nn) → (s.withOutside f b e).rnd = s.rnd) →
    step (s.withOutside f b e) =
      .next ((t.withOutside (g f) b (e.traced b s.pc (s.fetch16 s.pc))).endCycle s.awaitingKey) := by
  obtain ⟨t, hexec⟩ := exec_answers_next (decode (s.fetch16 s.pc)) s
  obtain ⟨g, -, hout⟩ := exec_withOutside hexec
  refine ⟨t, g, fun f b e hdue hrnd => step_of_exec hdue ?_⟩
  rw [emitTrace_withEnv]
  exact hout f b (e.traced b s.pc (s.fetch16 s.pc)) hrnd

/-! ### The obligations -/

/-- Settles O40: of two ends of a cycle that start from other report flags only the report flags differ. -/
theorem flagsDoNotInfluence : Obligations.FlagsDoNotInfluence := by
  unfold Obligations.FlagsDoNotInfluence
  intro s f hdue
  obtain ⟨t, g, hstep⟩ := step_withOutside s
  have hold := hstep s.flags s.traceEn s.env hdue fun _ => rfl
  have hnew := hstep f s.traceEn s.env hdue fun _ => rfl
  rw [endCycle_eq] at hold hnew
  exact ⟨_, _, hold, hnew⟩

/-- Settles O41: TRACE_EN decides whether a record is given out, and nothing reads the outputs. -/
theorem traceDoesNotInfluence : Obligations.TraceDoesNotInfluence := by
  unfold Obligations.TraceDoesNotInfluence
  intro s b hdue
  obtain ⟨t, g, hstep⟩ := step_withOutside s
  have hold := hstep s.flags s.traceEn s.env hdue fun _ => rfl
  have hnew := hstep s.flags b s.env hdue fun _ => rfl
  rw [endCycle_eq] at hold hnew
  exact ⟨_, _, hold, hnew⟩

/-- Settles O42: the two scripts differ in the command that the cycle uses up, and only random reads it. -/
theorem onlyRandomReadsInput : Obligations.OnlyRandomReadsInput := by
  unfold Obligations.OnlyRandomReadsInput
  intro s r r' rest hnot
  obtain ⟨t, g, hstep⟩ := step_withOutside s
  have hrnd : ∀ e, (∃ x nn, decode (s.fetch16 s.pc) = .random x nn) →
      (s.withOutside s.flags s.traceEn e).rnd = s.rnd := fun _ ⟨x, nn, hdecode⟩ => absurd hdecode (hnot x nn)
  have hr := hstep s.flags s.traceEn { s.env with script := .cycle r :: rest } rfl (hrnd _)
  have hr' := hstep s.flags s.traceEn { s.env with script := .cycle r' :: rest } rfl (hrnd _)
  rw [endCycle_eq] at hr hr'
  exact hr.trans hr'.symm

/-- The end of a cycle can only set a report flag. -/
theorem endCycle_keeps_flags (t : State) (held : Bool) {n : ReportFlag} (h : t.flags.get n = true) :
    (t.endCycle held).flags.get n = true := by
  rw [endCycle_eq]
  cases held with
  | true => exact h
  | false =>
    cases n with
    | sndstop => exact Bool.or_eq_true_iff.2 (.inl h)
    | _ => exact h

/-- SNDSTOP after the end of a cycle (60_exceptions.md R162): the tick finds ST at 1 and leaves 0. -/
theorem endCycle_sndstop (t : State) (held : Bool) : (t.endCycle held).flags.sndstop = true ↔
    t.flags.sndstop = true ∨ held = false ∧ t.st = 1#8 ∧ (t.endCycle held).st = 0#8 := by
  rw [endCycle_eq]
  cases held with
  | true => simp
  | false =>
    have hzero : t.st = 1#8 ∧ countDown t.st = 0#8 ↔ t.st = 1#8 :=
      and_iff_left_of_imp fun h => by rw [h]; rfl
    simp [hzero]

/-- Settles O39: the execute step raises a flag or none, and the end of the cycle can only set SNDSTOP. -/
theorem cyclesKeepFlagsSet : Obligations.CyclesKeepFlagsSet := by
  unfold Obligations.CyclesKeepFlagsSet
  intro s hdue
  obtain ⟨u, hexec⟩ := exec_answers_next (decode (s.fetch16 s.pc)) (s.emitTrace (s.fetch16 s.pc))
  obtain ⟨g, hg, hflags⟩ := exec_flags hexec
  rw [emitTrace_flags] at hflags
  refine ⟨_, step_of_exec hdue hexec, fun n hn => endCycle_keeps_flags u _ ?_⟩
  rw [hflags]
  exact hg.keeps hn

/-- Settles O32: the execute step raises other flags only, the end of a cycle sets SNDSTOP by its tick, and of the host's
operations two can clear it. -/
theorem soundStopOnlyByTick : Obligations.SoundStopOnlyByTick := by
  unfold Obligations.SoundStopOnlyByTick
  refine ⟨fun i s t hexec => exec_keeps_sndstop hexec, fun s hdue => ?_, fun s c rest hscript hop => ?_⟩
  · obtain ⟨u, hexec⟩ := exec_answers_next (decode (s.fetch16 s.pc)) (s.emitTrace (s.fetch16 s.pc))
    have hsame : u.flags.sndstop = s.flags.sndstop := by rw [exec_keeps_sndstop hexec, emitTrace_flags]
    refine ⟨u, _, hexec, step_of_exec hdue hexec, ?_⟩
    rw [endCycle_sndstop, hsame]
  · exact ⟨_, step_of_hostOp hscript hop, perform_sndstop s.popCommand c⟩

end Sys2Proof.Machine
end
